-- ==== Sys2Proof/Word.lean ====
section
/-! DEFINITION. The widths of the machine's words (00_scope.md R6, R7) and its text type. -/

namespace Sys2Proof

/-- A byte: a memory cell, an index register, the accumulator, a tape byte (R6). -/
abbrev Byte := BitVec 8

/-- An instruction word (R6, R46). -/
abbrev Word := BitVec 16

/-- A 14-bit address (R6, R28). -/
abbrev Addr := BitVec 14

/-- Text of a disassembly, a fault record or a dump, one character after the other. -/
abbrev Text := List Char

/-- `MEM_SIZE` (R6, R31). -/
abbrev memSize : Nat := 16384

end Sys2Proof
end

