-- ==== Sys2Proof/Config.lean ====
section
/-! DEFINITION. The launch parameters (00_scope.md R6) as plain data, and the free texts. The default VALUES of the
parameters stand in Sys2Proof/Decode.lean. -/

namespace Sys2Proof

/-- `WORD_ORDER` (R32, R38): which byte of an instruction word lies at the lower address. -/
inductive WordOrder where
  | leftFirst
  | rightFirst
  deriving DecidableEq, Repr

/-- `ADDR_WORD_ORDER` (R33, R38): which byte of an address word lies at the lower address. -/
inductive AddrWordOrder where
  | pageFirst
  | locationFirst
  deriving DecidableEq, Repr

/-- The indexing modes a 2-bit code may stand for (R52). -/
inductive IndexMode where
  | unchanged
  | increment
  | decrement
  | reserved
  deriving DecidableEq, Repr

/-- `MODE_MAP` (R52): the mode of each 2-bit code. -/
structure ModeMap where
  code00 : IndexMode
  code01 : IndexMode
  code10 : IndexMode
  code11 : IndexMode
  deriving DecidableEq, Repr

/-- `INDEX_WRAP` (R75). The spec defines the one value `mod256` (log entry 6). -/
inductive IndexWrap where
  | mod256
  deriving DecidableEq, Repr

/-- `FIELD_LAYOUT` (R50): the lowest bit of every field whose place the source leaves open. The widths are R50's. The
literal is no part of it: the source settles it at `w[7:0]` (R49). `shiftCount` is (lowest bit, width); it and the two
flag bits have no default (R50). -/
structure Layout where
  mask          : Nat
  bitLiteral    : Nat
  addressByte   : Nat
  ioFunction    : Nat
  indexRegister : Nat
  ioChannel     : Nat
  levelField    : Nat
  sectionField  : Nat
  jumpDirection : Nat
  jumpCount     : Nat
  indexingMode  : Nat
  pageNumber    : Nat
  shiftCount    : Option (Nat × Nat)
  uBit          : Option Nat
  vBit          : Option Nat
  deriving DecidableEq, Repr

/-- The instruction types (R55, R56): the ten named ones, Unknown, and any further named type a longer `DEFS` may
hold (R82), told apart by a number. -/
inductive InstrType where
  | unknown
  | tlj
  | tlx
  | tmj
  | tmx
  | bru
  | brl
  | ldx
  | cpx
  | sta
  | ioc
  | other (n : Nat)
  deriving DecidableEq, Repr

/-- The decode-field flags (R55). They drive disassembly only. -/
inductive DecodeFlag where
  | jump
  | literal
  | oLiteral
  | bLiteral
  | mask
  | indexReg
  | indexRegMode
  | pageNumber
  | addrLevelByte
  | addrByte
  | sectionLevel
  | sectionOnly
  | shiftCount
  | uv
  | ioChannel
  | ioDescriptor
  deriving DecidableEq, Repr

/-- One row of the definition table (R55). -/
structure DefRow where
  type     : InstrType
  mnemonic : Text
  value    : Word
  mask     : Word
  flags    : List DecodeFlag
  deriving DecidableEq, Repr

/-- The launch parameters (R6). They are fixed for a launch: no step changes them. -/
structure Config where
  iawBase       : Addr
  wordOrder     : WordOrder
  addrWordOrder : AddrWordOrder
  layout        : Layout
  defs          : List DefRow
  modeMap       : ModeMap
  indexWrap     : IndexWrap
  regName       : List Nat
  tape1         : List Byte
  tape2         : List Byte
  stop          : Option Addr
  deriving DecidableEq, Repr

/-- FREE VALUE (log entry 10): the text of an operand whose field has no place in the layout (`SHIFT_FIELD`, `U_BIT`,
`V_BIT`, R50) or of an index operand whose mode code is reserved (R63 gives no rendering). No rule of the machine
reads it. -/
opaque Config.openText : DecodeFlag → Word → Text

end Sys2Proof
end

