-- ==== Sys2Proof/Machine/Address.lean ====
section
/-! DEFINITION. Addresses: fields, construction, and the advance by two (20_memory.md R28 to R30). -/

namespace Sys2Proof

/-- `page = A[13:8]` (R28). -/
def Addr.pageOf (a : Addr) : BitVec 6 := a.extractLsb' 8 6

/-- `location = A[7:0]` (R28). -/
def Addr.locationOf (a : Addr) : Byte := a.extractLsb' 0 8

/-- `section = A[13:11]` (R28). -/
def Addr.sectionOf (a : Addr) : BitVec 3 := a.extractLsb' 11 3

/-- `level = A[10:8]` (R28). -/
def Addr.levelOf (a : Addr) : BitVec 3 := a.extractLsb' 8 3

/-- `fromPageLocation(p, loc) = p*256 + loc`, also written `Addr(p, loc)` (R28, R29). -/
def addrOfPage (p : BitVec 6) (loc : Byte) : Addr := p ++ loc

/-- `fromSectionLevelLocation(s, l, loc)` (R29). -/
def addrOfSection (s l : BitVec 3) (loc : Byte) : Addr := addrOfPage (s ++ l) loc

/-- `fromLinear(v)`: values of 16384 or more are refused (R29). -/
def addrOfLinear (v : Nat) : Option Addr := if v < memSize then some (BitVec.ofNat 14 v) else none

/-- `withSection(A, s)` (R29). -/
def Addr.withSection (a : Addr) (s : BitVec 3) : Addr := addrOfSection s a.levelOf a.locationOf

/-- `withLevel(A, l)` (R29). -/
def Addr.withLevel (a : Addr) (l : BitVec 3) : Addr := addrOfSection a.sectionOf l a.locationOf

/-- `withPage(A, p)` (R29). -/
def Addr.withPage (a : Addr) (p : BitVec 6) : Addr := addrOfPage p a.locationOf

/-- `withLocation(A, loc)` (R29). -/
def Addr.withLocation (a : Addr) (loc : Byte) : Addr := addrOfPage a.pageOf loc

/-- `nextInstruction(A) = (A + 2) mod 16384` (R30). -/
def Addr.nextInstruction (a : Addr) : Addr := a + 2#14

/-- The entry point `P10-000` (R6, R96). -/
def entryPoint : Addr := addrOfSection 1#3 0#3 0#8

end Sys2Proof
end

