-- ==== Sys2Proof/Syntax.lean ====
section
/-! DEFINITION. The instructions: one constructor per row of spec/opcode_table.json, with the operands of the row's
format (30_encoding.md R54). -/

namespace Sys2Proof

/-- An instruction. Register numbers, modes, pages, channels and function codes are the bit fields the word holds. The
branches carry their embedded address whole (R53, R76, R77), the Unknown row its word (R83). -/
inductive Instr where
  /-- TLJ: signed jump (direction, count) and literal (R78). -/
  | tlj (dir : BitVec 1) (count : BitVec 4) (literal : Byte)
  /-- TLX (R79). -/
  | tlx
  /-- TMJ: signed jump (direction, count) and mask (R80). -/
  | tmj (dir : BitVec 1) (count : BitVec 4) (mask : Byte)
  /-- TMX (R81). -/
  | tmx
  /-- BRU: embedded address (R77). -/
  | bru (target : Addr)
  /-- BRL: embedded address (R76). -/
  | brl (target : Addr)
  /-- LDX: index register and literal (R69). -/
  | ldx (r : BitVec 3) (n : Byte)
  /-- CPX: index register and literal (R70). -/
  | cpx (r : BitVec 3) (n : Byte)
  /-- STA (indirect): index register, mode code and page (R75). -/
  | sta (r : BitVec 3) (mode : BitVec 2) (page : BitVec 6)
  /-- IOC: channel and function code (R73). -/
  | ioc (channel : BitVec 3) (function : Byte)
  /-- The Unknown row, mnemonic `???`: any word no other row claims (R83). -/
  | unknown (w : Word)
  deriving DecidableEq, Repr

end Sys2Proof
end

