-- ==== Sys2Proof/WellFormed.lean ====
section
/-! DEFINITION. Which instructions have an encoding under the default definition table (30_encoding.md R56, R61). -/

namespace Sys2Proof

/-- The words that classify as Unknown under the default table: 0x5000-0x7FFF and 0xA000-0xFFFF (R61). -/
def isUnknownWord (w : Word) : Bool :=
  (0x5000 ≤ w.toNat && w.toNat ≤ 0x7FFF) || 0xA000 ≤ w.toNat

/-- An instruction is well-formed when its operands can stand in a word of its own row. TLJ with all operands zero is
the word of TLX, TMJ with all operands zero the word of TMX (R58); the section bits of a branch are fixed by its
pattern (R54); an Unknown word is one no named row claims (R61). Every other operand value is admitted, the reserved
mode code of STA among them (R62: it faults when executed). -/
def Instr.wellFormed : Instr → Bool
  | .tlj dir count literal => !(dir == 0 && count == 0 && literal == 0)
  | .tlx => true
  | .tmj dir count mask => !(dir == 0 && count == 0 && mask == 0)
  | .tmx => true
  | .bru target => target.sectionOf == 0#3
  | .brl target => target.sectionOf == 1#3
  | .ldx _ _ => true
  | .cpx _ _ => true
  | .sta _ _ _ => true
  | .ioc _ _ => true
  | .unknown w => isUnknownWord w

end Sys2Proof
end

