-- ==== Sys2Proof/Decode.lean ====
section
/-! DEFINITION. The default parameters, the fields of an instruction word, the classifier, the decoder and the encoder
(30_encoding.md). -/

namespace Sys2Proof

/-! ### The default parameters -/

/-- The default `FIELD_LAYOUT` (R50, decision D4). `SHIFT_FIELD`, `U_BIT` and `V_BIT` have no default. -/
def defaultLayout : Layout where
  mask := 0
  bitLiteral := 0
  addressByte := 0
  ioFunction := 0
  indexRegister := 8
  ioChannel := 8
  levelField := 8
  sectionField := 11
  jumpDirection := 12
  jumpCount := 8
  indexingMode := 6
  pageNumber := 0
  shiftCount := none
  uBit := none
  vBit := none

/-- The default `DEFS`, in declaration order (R56, decisions D5 and D28). -/
def defaultDefs : List DefRow :=
  [ ⟨.unknown, ['?', '?', '?'], 0x0000#16, 0x0000#16, []⟩,
    ⟨.tlj, ['T', 'L', 'J'], 0x0000#16, 0xE000#16, [.jump, .literal]⟩,
    ⟨.tlx, ['T', 'L', 'X'], 0x0000#16, 0xFFFF#16, []⟩,
    ⟨.tmj, ['T', 'M', 'J'], 0x2000#16, 0xE000#16, [.jump, .mask]⟩,
    ⟨.tmx, ['T', 'M', 'X'], 0x2000#16, 0xFFFF#16, []⟩,
    ⟨.bru, ['B', 'R', 'U'], 0x4000#16, 0xF800#16, [.addrLevelByte]⟩,
    ⟨.brl, ['B', 'R', 'L'], 0x4800#16, 0xF800#16, [.addrLevelByte]⟩,
    ⟨.ldx, ['L', 'D', 'X'], 0x8000#16, 0xF800#16, [.indexReg, .literal]⟩,
    ⟨.cpx, ['C', 'P', 'X'], 0x8800#16, 0xF800#16, [.indexReg, .literal]⟩,
    ⟨.sta, ['S', 'T', 'A'], 0x9000#16, 0xF800#16, [.indexRegMode, .pageNumber]⟩,
    ⟨.ioc, ['I', 'O', 'C'], 0x9800#16, 0xF800#16, [.ioChannel, .ioDescriptor]⟩ ]

/-- The default `MODE_MAP` (R52, decision D6). -/
def defaultModeMap : ModeMap := ⟨.unchanged, .increment, .decrement, .reserved⟩

/-- The default parameters (R6). The tapes and the stop address are launch parameters without a default: here no tape
byte and no stop address (log entry 4). -/
def Config.default : Config where
  iawBase := 0#14
  wordOrder := .leftFirst
  addrWordOrder := .pageFirst
  layout := defaultLayout
  defs := defaultDefs
  modeMap := defaultModeMap
  indexWrap := .mod256
  regName := [0, 1, 2, 3, 4, 5, 6, 7]
  tape1 := []
  tape2 := []
  stop := none

/-! ### The two bytes of an instruction word -/

/-- The word composed of the byte at the lower address and the byte after it (R32, R38). -/
def composeWord (order : WordOrder) (first second : Byte) : Word :=
  match order with
  | .leftFirst => first ++ second
  | .rightFirst => second ++ first

/-- The two bytes of a word in the order memory holds them: the inverse of `composeWord`. -/
def wordBytes (order : WordOrder) (w : Word) : Byte × Byte :=
  match order with
  | .leftFirst => (w.extractLsb' 8 8, w.extractLsb' 0 8)
  | .rightFirst => (w.extractLsb' 0 8, w.extractLsb' 8 8)

/-! ### Fields: views of fixed bit positions (R47, R50) -/

/-- The field of `w` of the given width whose lowest bit is `lo` (R7). -/
def bitField (w : Word) (lo width : Nat) : BitVec width := w.extractLsb' lo width

/-- `literal()`: the right byte (R49). -/
def literalOf (w : Word) : Byte := bitField w 0 8

/-- `mask()`. -/
def maskOf (l : Layout) (w : Word) : Byte := bitField w l.mask 8

/-- `bitLiteral()`. -/
def bitLiteralOf (l : Layout) (w : Word) : Byte := bitField w l.bitLiteral 8

/-- `addressByte()`. -/
def addressByteOf (l : Layout) (w : Word) : Byte := bitField w l.addressByte 8

/-- `ioFunction()`. -/
def ioFunctionOf (l : Layout) (w : Word) : Byte := bitField w l.ioFunction 8

/-- `indexRegister()`, `indexingRegister()`. -/
def indexRegisterOf (l : Layout) (w : Word) : BitVec 3 := bitField w l.indexRegister 3

/-- `ioChannel()`. -/
def ioChannelOf (l : Layout) (w : Word) : BitVec 3 := bitField w l.ioChannel 3

/-- `level()`. -/
def levelFieldOf (l : Layout) (w : Word) : BitVec 3 := bitField w l.levelField 3

/-- `section()`. -/
def sectionFieldOf (l : Layout) (w : Word) : BitVec 3 := bitField w l.sectionField 3

/-- `jumpDirection()`: 1 means backward. -/
def jumpDirectionOf (l : Layout) (w : Word) : BitVec 1 := bitField w l.jumpDirection 1

/-- `jumpCount()`. -/
def jumpCountOf (l : Layout) (w : Word) : BitVec 4 := bitField w l.jumpCount 4

/-- `indexingMode()`. -/
def indexingModeOf (l : Layout) (w : Word) : BitVec 2 := bitField w l.indexingMode 2

/-- `pageNumber()`. -/
def pageNumberOf (l : Layout) (w : Word) : BitVec 6 := bitField w l.pageNumber 6

/-- `shiftCount()`, where `SHIFT_FIELD` gives it a place. -/
def shiftCountOf (l : Layout) (w : Word) : Option Nat :=
  l.shiftCount.map fun p => (bitField w p.1 p.2).toNat

/-- The U flag, where `U_BIT` gives it a place. -/
def uFlagOf (l : Layout) (w : Word) : Option Bool := l.uBit.map fun b => w.getLsbD b

/-- The V flag, where `V_BIT` gives it a place. -/
def vFlagOf (l : Layout) (w : Word) : Option Bool := l.vBit.map fun b => w.getLsbD b

/-- The signed jump of a direction and a count: sign and magnitude, so that zero has two spellings (R51). -/
def signedJump (dir : BitVec 1) (count : BitVec 4) : Int :=
  if dir = 0#1 then (count.toNat : Int) else -(count.toNat : Int)

/-- `jump(w)` (R51). -/
def jumpOf (l : Layout) (w : Word) : Int := signedJump (jumpDirectionOf l w) (jumpCountOf l w)

/-- The embedded address: page `section() ++ level()`, location `addressByte()` (R53). -/
def embeddedAddress (l : Layout) (w : Word) : Addr :=
  addrOfSection (sectionFieldOf l w) (levelFieldOf l w) (addressByteOf l w)

/-- The mode a 2-bit code stands for under `MODE_MAP` (R52). -/
def ModeMap.modeOf (m : ModeMap) (code : BitVec 2) : IndexMode :=
  if code = 0#2 then m.code00
  else if code = 1#2 then m.code01
  else if code = 2#2 then m.code10
  else m.code11

/-! ### The classifier (R55, R58) -/

/-- The number of 1 bits (R8). -/
def popcount (w : Word) : Nat := (List.range 16).countP fun k => w.getLsbD k

/-- A word matches a row when it agrees with the row's value on the row's mask (R55). -/
def DefRow.matchesWord (d : DefRow) (w : Word) : Bool := (w &&& d.mask) == (d.value &&& d.mask)

/-- One pass of the table's construction, seen at the entry of `w`: the rows of mask popcount `bits`, in declaration
order, each overwriting the entry it matches (R58). -/
def classifyPass (defs : List DefRow) (w : Word) (bits : Nat) (t : InstrType) : InstrType :=
  defs.foldl (fun t d => if popcount d.mask = bits ∧ d.matchesWord w = true then d.type else t) t

/-- `classify(w) = TABLE[w]`: filled with Unknown, then overwritten in ascending mask popcount (R58, R59). The entry of
a word depends on that word alone, so the table is this function of it (R26). -/
def classify (defs : List DefRow) (w : Word) : InstrType :=
  (List.range 17).foldl (fun t bits => classifyPass defs w bits t) .unknown

/-! ### The decoder -/

/-- Why bytes give no instruction. -/
inductive DecodeError where
  /-- Fewer than the two bytes every instruction has (R46). Safe. -/
  | truncated
  /-- The word classifies as a named type of a longer `DEFS` that has no rule (R82); the step then faults
  UnimplementedInstruction. Safe. -/
  | unhandledType (n : Nat)
  deriving DecidableEq, Repr

/-- The instruction a word holds: its type by the classifier, its operands as fields of the word (R47, R68). -/
def decode (cfg : Config) (w : Word) : Except DecodeError Instr :=
  match classify cfg.defs w with
  | .unknown => .ok (.unknown w)
  | .tlj => .ok (.tlj (jumpDirectionOf cfg.layout w) (jumpCountOf cfg.layout w) (literalOf w))
  | .tlx => .ok .tlx
  | .tmj => .ok (.tmj (jumpDirectionOf cfg.layout w) (jumpCountOf cfg.layout w) (maskOf cfg.layout w))
  | .tmx => .ok .tmx
  | .bru => .ok (.bru (embeddedAddress cfg.layout w))
  | .brl => .ok (.brl (embeddedAddress cfg.layout w))
  | .ldx => .ok (.ldx (indexRegisterOf cfg.layout w) (literalOf w))
  | .cpx => .ok (.cpx (indexRegisterOf cfg.layout w) (literalOf w))
  | .sta => .ok (.sta (indexRegisterOf cfg.layout w) (indexingModeOf cfg.layout w) (pageNumberOf cfg.layout w))
  | .ioc => .ok (.ioc (ioChannelOf cfg.layout w) (ioFunctionOf cfg.layout w))
  | .other n => .error (.unhandledType n)

/-- The instruction at the head of a list of bytes, with the bytes after it (R46). -/
def decodeBytes (cfg : Config) : List Byte → Except DecodeError (Instr × List Byte)
  | first :: second :: rest =>
    match decode cfg (composeWord cfg.wordOrder first second) with
    | .ok i => .ok (i, rest)
    | .error e => .error e
  | _ => .error .truncated

/-- The instruction the decoder reads from a table word under the default parameters, its bits above `nbits` zero. -/
def decodeTableWord (nbits w : Nat) : Option Instr :=
  let v : Word := BitVec.ofNat 16 (w % 2 ^ nbits)
  let b := wordBytes Config.default.wordOrder v
  match decodeBytes Config.default [b.1, b.2] with
  | .ok (i, _) => some i
  | .error _ => none

/-! ### The encoder -/

/-- The word of an instruction under the default parameters (R54, R56). -/
def encode : Instr → Word
  | .tlj dir count literal => 0b000#3 ++ dir ++ count ++ literal
  | .tlx => 0x0000#16
  | .tmj dir count mask => 0b001#3 ++ dir ++ count ++ mask
  | .tmx => 0x2000#16
  | .bru target => 0b01000#5 ++ target.levelOf ++ target.locationOf
  | .brl target => 0b01001#5 ++ target.levelOf ++ target.locationOf
  | .ldx r n => 0b10000#5 ++ r ++ n
  | .cpx r n => 0b10001#5 ++ r ++ n
  | .sta r mode page => 0b10010#5 ++ r ++ mode ++ page
  | .ioc channel function => 0b10011#5 ++ channel ++ function
  | .unknown w => w

/-! ### What parameters put in place of the defaults must keep -/

/-- The pattern facts the source states, which any `DEFS` (and layout) put in place of the default must keep (R57), one
row for each type (R55), and IAW slots that lie inside memory (R21). R57 has 0x4200 classify 'in the BRU family' and says
nowhere which types make up that family; `w4200IsBru` takes it to be the one type BRU. DESIGN CHOICE, safe (log entry
22). -/
structure Config.Admissible (cfg : Config) : Prop where
  unknownRow : ∃ d ∈ cfg.defs, d.type = .unknown ∧ d.mask = 0#16
  oneRowEach : (cfg.defs.map DefRow.type).Nodup
  tljRow : ∃ d ∈ cfg.defs, d.type = .tlj ∧ d.mask = 0xE000#16 ∧ d.value.extractLsb' 13 3 = 0#3
  tlxRow : ∃ d ∈ cfg.defs, d.type = .tlx ∧ d.value = 0x0000#16 ∧ d.mask = 0xFFFF#16
  tmxRow : ∃ d ∈ cfg.defs, d.type = .tmx ∧ d.value = 0x2000#16 ∧ d.mask = 0xFFFF#16
  zeroIsTlx : classify cfg.defs 0x0000#16 = .tlx
  w2000IsTmx : classify cfg.defs 0x2000#16 = .tmx
  w1022IsTlj : classify cfg.defs 0x1022#16 = .tlj
  w4200IsBru : classify cfg.defs 0x4200#16 = .bru
  w802AIsLdx : classify cfg.defs 0x802A#16 = .ldx ∧ indexRegisterOf cfg.layout 0x802A#16 = 0#3 ∧
    literalOf 0x802A#16 = 42#8
  tapeOneTransferIsIoc : ∃ w : Word, ioChannelOf cfg.layout w = 1#3 ∧ ioFunctionOf cfg.layout w = 0o007#8 ∧
    classify cfg.defs w = .ioc
  iawBaseFits : cfg.iawBase.toNat + 63 ≤ 16383

end Sys2Proof
end

