-- ==== Sys2Proof/Machine/State.lean ====
section
/-! DEFINITION. The state of the machine (10_state.md), the fault record and the refusals, and the state after reset. -/

namespace Sys2Proof.Machine

/-- The compare flag (R16). -/
inductive Cmp where
  | low
  | equal
  | high
  deriving DecidableEq, Repr

/-- The two tape readers (R25, R71). -/
inductive TapeId where
  | tape1
  | tape2
  deriving DecidableEq, Repr

/-- The register an UnwrittenRegister fault names (R84). -/
inductive RegName where
  | index (r : BitVec 3)
  | accumulator
  deriving DecidableEq, Repr

/-- The fault record: the kind with what R84 says it records. `iaw` is the address of the executing instruction, `w` its
word. All are stops the spec describes: safe. -/
inductive Fault where
  /-- Code 1. Raised by executing a word that classifies as Unknown (R83), with the word as two octal bytes. Safe. -/
  | unknownInstruction (iaw : Addr) (w : Word) (octal : Text)
  /-- Code 2. Raised by executing TLJ, TLX, TMJ, TMX, BRU (R77 to R81) or a named type of a longer `DEFS` (R82), with the
  disassembly. Safe. -/
  | unimplementedInstruction (iaw : Addr) (w : Word) (text : Text)
  /-- Code 3. Raised by IOC with a channel of 3 to 7 or a function code other than 0o007 (R73). Safe. -/
  | unimplementedOperation (iaw : Addr) (w : Word) (channel : BitVec 3) (function : Byte)
  /-- Code 4. Raised by an access at 16384 or above: the second byte of a fetch at 0x3FFF (R31, R32), or of an IAW slot
  under an inadmissible `IAW_BASE` (R21). Safe. -/
  | boundsViolation (iaw : Option Addr) (a : Nat)
  /-- Code 5. Raised by CPX or STA reading a register cell that is unwritten (R13). No run from `State.reset` raises it,
  since every register holds a value there (log entry 1). Safe. -/
  | unwrittenRegister (iaw : Addr) (w : Word) (reg : RegName)
  /-- Code 6. Raised by a read of an unwritten byte of memory (R35); the IAW is none where it is what is being read.
  Safe. -/
  | unwrittenMemory (iaw : Option Addr) (a : Nat)
  /-- Code 7. Raised by STA when its mode code is reserved under `MODE_MAP` (R52, R75). Safe. -/
  | reservedIndexingMode (iaw : Addr) (w : Word)
  /-- Code 8. Raised by reading an address word whose page byte has a spare bit set (R33). Safe. -/
  | iawNonCanonical (slot : Nat) (pageByte : Byte)
  /-- Code 9. Raised by STA storing into the active IAW slot (R102). Safe. -/
  | iawHazard (iaw : Addr) (w : Word) (a : Addr)
  /-- Code 10. Raised by IOC on channel 0 when no tape is bound, with the channel and the function code (R73; R84 lists
  the IAW and the word: log entry 23). Safe. -/
  | noCurrentTape (iaw : Addr) (w : Word) (channel : BitVec 3) (function : Byte)
  deriving DecidableEq, Repr

/-- Why a step has no meaning. -/
inductive Refusal where
  /-- Raised by an arm of exec whose instruction has no meaning yet; no arm raises it now. Safe. -/
  | notModelled (mnemonic : String)
  /-- Raised by step when a fault is recorded: from then on step is not defined (R65, R85). Safe. -/
  | engineStopped (record : Fault)
  deriving DecidableEq, Repr

/-- Memory (R31): the written cells, addresses strictly rising and below 16384. An address that is not listed is
unwritten (R35). -/
abbrev Memory := List Host.Cell

/-- The state (R11), with the launch parameters beside it (log entry 3). The program counter is no field: it is the
address word `mem` holds in the active IAW slot (R22, R23). -/
structure State where
  /-- `X[0..7]`, each a value or unwritten (R12). -/
  x       : Vector (Option Byte) 8
  /-- `ACC`, a value or unwritten (R15). -/
  acc     : Option Byte
  /-- `CMP` (R16). -/
  cmp     : Cmp
  /-- `SP` (R19). -/
  sp      : BitVec 5
  /-- `M` (R31). -/
  mem     : Memory
  /-- `CUR_TAPE` (R25). -/
  curTape : Option TapeId
  /-- `CUR1` (R25). -/
  cur1    : Nat
  /-- `CUR2` (R25). -/
  cur2    : Nat
  /-- `FAULT` (R85). -/
  fault   : Option Fault
  /-- The launch parameters (R6). -/
  cfg     : Config
  deriving DecidableEq, Repr

/-- The machine before anything is loaded and before `reset()`: memory unwritten (R35) and the default parameters. The
source gives no register contents (R13); every register holds 0. DESIGN CHOICE, unsafe (log entry 1). -/
def State.powerOn : State where
  x := Vector.replicate 8 (some 0#8)
  acc := some 0#8
  cmp := .equal
  sp := 0#5
  mem := []
  curTape := none
  cur1 := 0
  cur2 := 0
  fault := none
  cfg := Config.default

/-- The machine right after reset (R27, R96): IAW slot 0 holds P10-000, `CMP` is Equal, no tape is bound, no byte other
than slot 0's is written. The registers hold 0: DESIGN CHOICE, unsafe (log entry 1). -/
def State.reset : State where
  x := Vector.replicate 8 (some 0#8)
  acc := some 0#8
  cmp := .equal
  sp := 0#5
  mem := [(0, 0x08#8), (1, 0x00#8)]
  curTape := none
  cur1 := 0
  cur2 := 0
  fault := none
  cfg := Config.default

end Sys2Proof.Machine
end

