-- ==== Sys2Proof/Machine/Text.lean ====
section
/-! DEFINITION. Text: the address notation (00_scope.md R10), the disassembly (30_encoding.md R63, R64) and the octal
word of a fault record (R83). No rule of the machine reads text. -/

namespace Sys2Proof.Machine

/-! ### Digits -/

/-- The character of a digit below ten. -/
def digitChar (d : Nat) : Char := Char.ofNat (48 + d)

/-- `n` in base `b`, exactly `width` digits, the low ones of a longer number. -/
def fixedDigits (b : Nat) : (width n : Nat) → Text
  | 0, _ => []
  | width + 1, n => fixedDigits b width (n / b) ++ [digitChar (n % b)]

/-- Decimal digits without leading zeros, of at most `fuel` digits. -/
def decimalDigits : (fuel n : Nat) → Text
  | 0, _ => []
  | fuel + 1, n => if n < 10 then [digitChar n] else decimalDigits fuel (n / 10) ++ [digitChar (n % 10)]

/-- A number of at most five decimal digits (every field of a word has at most 16 bits). -/
def decimal (n : Nat) : Text := decimalDigits 5 n

/-- An integer in decimal; `-0` does not arise, since both spellings of zero are the integer 0 (R51, R63). -/
def decimalInt (z : Int) : Text := if z < 0 then '-' :: decimal z.natAbs else decimal z.natAbs

/-- A byte as three octal digits. -/
def octalByte (b : Byte) : Text := fixedDigits 8 3 b.toNat

/-- A byte as eight binary digits. -/
def binaryByte (b : Byte) : Text := fixedDigits 2 8 b.toNat

/-- A word as two octal bytes `LLL-RRR`, the left byte first (R7, R83). -/
def octalWord (w : Word) : Text := octalByte (w.extractLsb' 8 8) ++ '-' :: octalByte (w.extractLsb' 0 8)

/-! ### The address notation (R10) -/

/-- `P%02o-%03o` (R10). -/
def renderAddress (a : Addr) : Text :=
  'P' :: fixedDigits 8 2 a.pageOf.toNat ++ '-' :: octalByte a.locationOf

/-- Why an address text is malformed: the source's FormatError, a failure of parsing and no machine fault (R10). The
first four are R10's checks; `location` is a location above 0o377, on which R10 is silent (log entry 12). -/
inductive FormatError where
  | length
  | page
  | dash
  | digit
  | location
  deriving DecidableEq, Repr

/-- An octal digit's value. -/
def octalDigit (c : Char) : Option Nat := if '0' ≤ c ∧ c ≤ '7' then some (c.toNat - 48) else none

/-- The address a text names (R10): the four checks in their order, then the location's range. -/
def parseAddress (t : Text) : Except FormatError Addr :=
  match t with
  | [c0, c1, c2, c3, c4, c5, c6] =>
    if c0 ≠ 'P' then .error .page
    else if c3 ≠ '-' then .error .dash
    else
      match octalDigit c1, octalDigit c2, octalDigit c4, octalDigit c5, octalDigit c6 with
      | some p1, some p0, some l2, some l1, some l0 =>
        if 256 ≤ l2 * 64 + l1 * 8 + l0 then .error .location
        else .ok (addrOfPage (BitVec.ofNat 6 (p1 * 8 + p0)) (BitVec.ofNat 8 (l2 * 64 + l1 * 8 + l0)))
      | _, _, _, _, _ => .error .digit
  | _ => .error .length

/-! ### The disassembly (R63, R64) -/

/-- The flags in the order their operands are rendered (R63), but for IndexReg, which R63's numbered list puts after the
literals while every example of R63 and of spec/95_test_vectors.md (`LDX R#0 42`) renders it before them: the examples
are followed. DEDUCED (log entry 16). -/
def renderingOrder : List DecodeFlag :=
  [.jump, .indexReg, .literal, .oLiteral, .bLiteral, .mask, .indexRegMode, .pageNumber, .addrLevelByte, .addrByte,
    .sectionLevel, .sectionOnly, .shiftCount, .uv, .ioChannel, .ioDescriptor]

/-- Channel descriptions (R64). -/
def channelText (h : BitVec 3) : Text :=
  if h = 0#3 then ['c', 'u', 'r', 'r', 'e', 'n', 't', ' ', 't', 'a', 'p', 'e']
  else if h = 1#3 then ['t', 'a', 'p', 'e', ' ', '#', '1']
  else if h = 2#3 then ['t', 'a', 'p', 'e', ' ', '#', '2']
  else if h = 3#3 then ['k', 'e', 'y', 'b', 'o', 'a', 'r', 'd']
  else if h = 4#3 then ['C', 'R', 'T']
  else ['[', 'T', 'O', 'D', 'O', ']']

/-- Function descriptions, for the tape and keyboard channels only; every code but 0o007 renders as `???` (R64). On a
channel that has no function descriptions the code is unrecognised too. DEDUCED (log entry 11). -/
def functionText (h : BitVec 3) (f : Byte) : Text :=
  if h.toNat ≤ 3 ∧ f = 0o007#8 then
    ['t', 'a', 'p', 'e', ' ', 't', 'r', 'a', 'n', 's', 'f', 'e', 'r', ' ', 'b', 'y', 't', 'e', ' ',
      'b', 'l', 'o', 'c', 'k', 'i', 'n', 'g']
  else ['?', '?', '?']

/-- The operand of a flag bit, `+` when the bit is 1. -/
def signedFlag (set : Bool) (name : Char) : Text := [if set then '+' else '-', name]

/-- The index operand with its mode (R63). -/
def indexModeText (cfg : Config) (w : Word) : Text :=
  let tail : Text := '#' :: decimal (indexRegisterOf cfg.layout w).toNat
  match cfg.modeMap.modeOf (indexingModeOf cfg.layout w) with
  | .increment => 'I' :: tail
  | .decrement => 'D' :: tail
  | .unchanged => 'R' :: tail
  | .reserved => Config.openText .indexRegMode w

/-- The operands one flag renders (R63). -/
def flagOperands (cfg : Config) (w : Word) : DecodeFlag → List Text
  | .jump => [decimalInt (jumpOf cfg.layout w)]
  | .literal => [decimal (literalOf w).toNat]
  | .oLiteral => [octalByte (literalOf w)]
  | .bLiteral => [binaryByte (bitLiteralOf cfg.layout w)]
  | .mask => [binaryByte (maskOf cfg.layout w)]
  | .indexReg => ['R' :: '#' :: decimal (indexRegisterOf cfg.layout w).toNat]
  | .indexRegMode => [indexModeText cfg w]
  | .pageNumber => ['P' :: fixedDigits 8 2 (pageNumberOf cfg.layout w).toNat]
  | .addrLevelByte => [renderAddress (embeddedAddress cfg.layout w)]
  | .addrByte => ['P' :: '-' :: octalByte (addressByteOf cfg.layout w)]
  | .sectionLevel =>
    ['P' :: fixedDigits 8 1 (sectionFieldOf cfg.layout w).toNat ++ fixedDigits 8 1 (levelFieldOf cfg.layout w).toNat]
  | .sectionOnly => ['S' :: '#' :: decimal (sectionFieldOf cfg.layout w).toNat]
  | .shiftCount =>
    match shiftCountOf cfg.layout w with
    | some n => [decimal n]
    | none => [Config.openText .shiftCount w]
  | .uv =>
    match uFlagOf cfg.layout w, vFlagOf cfg.layout w with
    | some u, some v => [signedFlag u 'U', signedFlag v 'V']
    | _, _ => [Config.openText .uv w]
  | .ioChannel => ['C' :: '#' :: decimal (ioChannelOf cfg.layout w).toNat]
  | .ioDescriptor =>
    [';' :: ' ' :: channelText (ioChannelOf cfg.layout w) ++
      ' ' :: functionText (ioChannelOf cfg.layout w) (ioFunctionOf cfg.layout w)]

/-- Words separated by one space. -/
def spaced : List Text → Text
  | [] => []
  | [t] => t
  | t :: u :: rest => t ++ ' ' :: spaced (u :: rest)

/-- The mnemonic and the operands of a row's flags, in the rendering order (R63). -/
def disassembleRow (cfg : Config) (d : DefRow) (w : Word) : Text :=
  spaced (d.mnemonic :: (renderingOrder.filter fun f => f ∈ d.flags).flatMap (flagOperands cfg w))

/-- `disassemble(w)` (R63): by the row of the word's type (R55: each type has one row); `???` for an Unknown word. -/
def disassemble (cfg : Config) (w : Word) : Text :=
  match cfg.defs.find? fun d => d.type = classify cfg.defs w with
  | some d => disassembleRow cfg d w
  | none => ['?', '?', '?']

end Sys2Proof.Machine
end

