-- ==== Sys2Proof/Machine/Ops.lean ====
section
/-! DEFINITION. The named operations over memory, registers, tapes and the IAW, and the phases of a step that every
instruction shares. -/

namespace Sys2Proof.Machine

/-! ### Memory -/

/-- The canonical form: addresses strictly rising and all inside memory (R31). -/
def Memory.wf : Memory → Bool
  | [] => true
  | [c] => decide (c.1 < memSize)
  | c :: d :: rest => decide (c.1 < d.1) && Memory.wf (d :: rest)

/-- What one address holds; none is unwritten (R35). -/
def Memory.read : Memory → Nat → Option Byte
  | [], _ => none
  | c :: rest, a => if c.1 = a then some c.2 else Memory.read rest a

/-- Memory with one cell written (R31), its entry in its place by address. -/
def Memory.write : Memory → Nat → Byte → Memory
  | [], a, v => [(a, v)]
  | c :: rest, a, v =>
    if a < c.1 then (a, v) :: c :: rest
    else if c.1 = a then (a, v) :: rest
    else c :: Memory.write rest a v

/-- `MemRead(a, 1)`, bounds-checked (R31, R35). `iaw` is the executing instruction's address where it is known. -/
def memRead (s : State) (iaw : Option Addr) (a : Nat) : Except Fault Byte :=
  if a < memSize then
    match Memory.read s.mem a with
    | some b => .ok b
    | none => .error (.unwrittenMemory iaw a)
  else .error (.boundsViolation iaw a)

/-- `MemWrite(a, 1, v)`, bounds-checked (R31). -/
def memWrite (s : State) (iaw : Option Addr) (a : Nat) (v : Byte) : Except Fault State :=
  if a < memSize then .ok { s with mem := Memory.write s.mem a v } else .error (.boundsViolation iaw a)

/-- `FetchWord(a)`: the byte at `a`, then the byte at `a + 1`, which does not wrap (R32). -/
def fetchWord (s : State) (a : Addr) : Except Fault Word :=
  match memRead s (some a) a.toNat with
  | .error f => .error f
  | .ok first =>
    match memRead s (some a) (a.toNat + 1) with
    | .error f => .error f
    | .ok second => .ok (composeWord s.cfg.wordOrder first second)

/-- The page byte and the location byte of an address word, from its byte at the lower address and the one after. -/
def addrWordParts (order : AddrWordOrder) (first second : Byte) : Byte × Byte :=
  match order with
  | .pageFirst => (first, second)
  | .locationFirst => (second, first)

/-- The two bytes of an address word in the order memory holds them: page with spare bits 0, and location (R34). -/
def addrWordBytes (order : AddrWordOrder) (a : Addr) : Byte × Byte :=
  match order with
  | .pageFirst => (a.pageOf.setWidth 8, a.locationOf)
  | .locationFirst => (a.locationOf, a.pageOf.setWidth 8)

/-- `ReadAddrWord(slot)` (R33). -/
def readAddrWord (s : State) (slot : Nat) : Except Fault Addr :=
  match memRead s none slot with
  | .error f => .error f
  | .ok first =>
    match memRead s none (slot + 1) with
    | .error f => .error f
    | .ok second =>
      let p := addrWordParts s.cfg.addrWordOrder first second
      if p.1.extractLsb' 6 2 = 0#2 then .ok (addrOfPage (p.1.extractLsb' 0 6) p.2)
      else .error (.iawNonCanonical slot p.1)

/-- `WriteAddrWord(slot, a)` (R34). -/
def writeAddrWord (s : State) (iaw : Option Addr) (slot : Nat) (a : Addr) : Except Fault State :=
  let b := addrWordBytes s.cfg.addrWordOrder a
  match memWrite s iaw slot b.1 with
  | .error f => .error f
  | .ok t => memWrite t iaw (slot + 1) b.2

/-! ### The IAW -/

/-- `slotAddr() = IAW_BASE + 2*(SP & 0x1F)`, a 14-bit address (R21). -/
def slotAddr (s : State) : Addr := s.cfg.iawBase + 2#14 * s.sp.setWidth 14

/-- The active IAW, the machine's program counter (R23). -/
def activeIaw (s : State) : Except Fault Addr := readAddrWord s (slotAddr s).toNat

/-! ### Registers and tapes -/

/-- The cell `X[r]` (R12). -/
def State.cell (s : State) (r : BitVec 3) : Option Byte := s.x[r.toNat]'r.isLt

/-- `X[r] <- v` (R9). -/
def State.setX (s : State) (r : BitVec 3) (v : Byte) : State := { s with x := s.x.set r.toNat (some v) r.isLt }

/-- `ACC <- v` (R9). -/
def State.setAcc (s : State) (v : Byte) : State := { s with acc := some v }

/-- `CMP <- c` (R9). -/
def State.setCmp (s : State) (c : Cmp) : State := { s with cmp := c }

/-- What a step holds once it has fetched: the IAW it read at its start and the word it fetched there (R24, R65). -/
structure Fetched where
  iaw  : Addr
  word : Word
  deriving DecidableEq, Repr

/-- Reading `X[r]`: an unwritten cell faults (R13). -/
def readX (c : Fetched) (s : State) (r : BitVec 3) : Except Fault Byte :=
  match s.cell r with
  | some v => .ok v
  | none => .error (.unwrittenRegister c.iaw c.word (.index r))

/-- Reading `ACC`: an unwritten cell faults (R13). -/
def readAcc (c : Fetched) (s : State) : Except Fault Byte :=
  match s.acc with
  | some v => .ok v
  | none => .error (.unwrittenRegister c.iaw c.word .accumulator)

/-- `EOT_BYTE` (R6). -/
def eotByte : Byte := 0xFF#8

/-- The bytes of a tape (R72). -/
def tapeBytes (cfg : Config) : TapeId → List Byte
  | .tape1 => cfg.tape1
  | .tape2 => cfg.tape2

/-- The cursor of a tape (R25). -/
def State.cursor (s : State) : TapeId → Nat
  | .tape1 => s.cur1
  | .tape2 => s.cur2

/-- The byte under a tape's cursor, the sentinel past its end (R72). -/
def tapeByte (s : State) (t : TapeId) : Byte := (tapeBytes s.cfg t).getD (s.cursor t) eotByte

/-- The cursor of a tape moved on by one (R72). -/
def State.advanceTape (s : State) : TapeId → State
  | .tape1 => { s with cur1 := s.cur1 + 1 }
  | .tape2 => { s with cur2 := s.cur2 + 1 }

/-- The binding an IOC on a channel makes: channels 1 and 2 bind their tape, channel 0 keeps the last (R71, R73). -/
def boundTape (s : State) (channel : BitVec 3) : Option TapeId :=
  if channel = 1#3 then some .tape1
  else if channel = 2#3 then some .tape2
  else s.curTape

/-! ### The phases of a step -/

/-- Phases 1 and 2: read the active IAW and fetch the word there (R65, R42). -/
def fetch (s : State) : Except Fault Fetched :=
  match activeIaw s with
  | .error f => .error f
  | .ok a =>
    match fetchWord s a with
    | .error f => .error f
    | .ok w => .ok ⟨a, w⟩

/-- What the execute phase returns: the state it leaves and whether it took a branch (R18, R66). -/
structure Effect where
  state : State
  taken : Bool
  deriving DecidableEq, Repr

/-- Phase 4: store the next IAW in the slot, or leave what a taken branch has stored (R65). `s` is the state the step
began in, whose slot address is the step's. -/
def advance (s : State) (c : Fetched) (e : Effect) : Host.Outcome State Fault Refusal :=
  if e.taken then .next e.state
  else
    match writeAddrWord e.state (some c.iaw) (slotAddr s).toNat c.iaw.nextInstruction with
    | .error f => .fault f
    | .ok t => .next t

/-- One instruction from fetch to advance (R65): a fault in any phase is the outcome, and nothing of the step is kept
(R85). `body` is the execute phase. -/
def perform (body : Fetched → State → Except Fault Effect) (s : State) : Host.Outcome State Fault Refusal :=
  match fetch s with
  | .error f => .fault f
  | .ok c =>
    match body c s with
    | .error f => .fault f
    | .ok e => advance s c e

/-- The execute phase of a named type that has no rule (R66, R77 to R82). -/
def unimplementedBody (c : Fetched) (s : State) : Except Fault Effect :=
  .error (.unimplementedInstruction c.iaw c.word (disassemble s.cfg c.word))

/-- The execute phase of Unknown (R83). -/
def unknownBody (c : Fetched) (_ : State) : Except Fault Effect :=
  .error (.unknownInstruction c.iaw c.word (octalWord c.word))

/-- A step whose word has no constructor of `Instr`: a named type of a longer `DEFS` (R82). -/
def performUnhandled (s : State) : Host.Outcome State Fault Refusal := perform unimplementedBody s

/-! ### Placing a program word -/

/-- Whether an instruction at `a` lies inside memory and off the active IAW slot. -/
def fetchSiteFree (s : State) (a : Addr) : Bool :=
  decide (a.toNat + 1 < memSize) &&
    (decide (a.toNat + 1 < (slotAddr s).toNat) || decide ((slotAddr s).toNat + 1 < a.toNat))

/-- Where the next instruction is placed: at the active IAW, or at the entry point where no instruction can lie at the
IAW or the IAW cannot be read. -/
def fetchSite (s : State) : Addr :=
  match activeIaw s with
  | .ok a => if fetchSiteFree s a then a else entryPoint
  | .error _ => entryPoint

/-- The state with an instruction word stored where the next step fetches (log entry 5): the fault record cleared, the
IAW naming the place, and the word's two bytes there. -/
def placeFetchWord (s : State) (nbits w : Nat) : State :=
  let site := fetchSite s
  let slot := (slotAddr s).toNat
  let iawBytes := addrWordBytes s.cfg.addrWordOrder site
  let bytes := wordBytes s.cfg.wordOrder (BitVec.ofNat 16 (w % 2 ^ nbits))
  let mem1 := Memory.write (Memory.write s.mem slot iawBytes.1) (slot + 1) iawBytes.2
  { s with
    mem := Memory.write (Memory.write mem1 site.toNat bytes.1) (site.toNat + 1) bytes.2
    fault := none }

end Sys2Proof.Machine
end

