-- ==== Sys2Proof/Machine/Operands.lean ====
section
/-! DEFINITION. The operand forms: the indirect address and its post-modification (R75), the branch target (R76). -/

namespace Sys2Proof.Machine

/-- The address STA stores to: `Addr(p, X[r])` (R75). -/
def indirectAddr (page : BitVec 6) (x : Byte) : Addr := addrOfPage page x

/-- `(x + 1)` under `INDEX_WRAP` (R75). -/
def indexIncrement : IndexWrap → Byte → Byte
  | .mod256, x => x + 1#8

/-- `(x - 1)` under `INDEX_WRAP` (R75). -/
def indexDecrement : IndexWrap → Byte → Byte
  | .mod256, x => x - 1#8

/-- The register update of an indexing mode, on the value `x` the register held (R75). -/
def postModify (s : State) (mode : IndexMode) (r : BitVec 3) (x : Byte) : State :=
  match mode with
  | .increment => s.setX r (indexIncrement s.cfg.indexWrap x)
  | .decrement => s.setX r (indexDecrement s.cfg.indexWrap x)
  | .unchanged => s
  | .reserved => s

/-- Whether an address is a byte of the active IAW slot (R102). -/
def inActiveSlot (s : State) (a : Addr) : Bool :=
  decide (a.toNat = (slotAddr s).toNat) || decide (a.toNat = (slotAddr s).toNat + 1)

/-- The branch target: the embedded address with the section of the executing instruction's address (R76). -/
def branchTarget (iaw embedded : Addr) : Addr := embedded.withSection iaw.sectionOf

end Sys2Proof.Machine
end

