-- ==== Sys2Proof/Machine/Branch.lean ====
section
/-! DEFINITION. The branch family: BRU, which has no execution rule, and BRL (44_branch.md R76, R77). -/

namespace Sys2Proof.Machine

/-- BRU (R77): a named type with no execution rule; every BRU word faults UnimplementedInstruction. -/
def execBru (_target : Addr) (s : State) : Host.Outcome State Fault Refusal := perform unimplementedBody s

/-- The execute phase of BRL (R76): when `CMP` is Low the target becomes the active IAW, else nothing changes. -/
def brlBody (target : Addr) (c : Fetched) (s : State) : Except Fault Effect :=
  match s.cmp with
  | .low =>
    match writeAddrWord s (some c.iaw) (slotAddr s).toNat (branchTarget c.iaw target) with
    | .error f => .error f
    | .ok t => .ok ⟨t, true⟩
  | .equal => .ok ⟨s, false⟩
  | .high => .ok ⟨s, false⟩

/-- BRL, branch on low (R76). -/
def execBrl (target : Addr) (s : State) : Host.Outcome State Fault Refusal := perform (brlBody target) s

end Sys2Proof.Machine
end

