-- ==== Sys2Proof/Machine/Flags.lean ====
section
/-! DEFINITION. The one flag computation: the compare flag (R16, R70). There is no other flag (R17). -/

namespace Sys2Proof.Machine

/-- The unsigned comparison of a register's value with a literal (R70). -/
def compareBytes (v n : Byte) : Cmp :=
  if v.toNat < n.toNat then .low
  else if v.toNat = n.toNat then .equal
  else .high

end Sys2Proof.Machine
end

