-- ==== Sys2Proof/Machine/IndexRegister.lean ====
section
/-! DEFINITION. The index-register instructions LDX and CPX (41_ldx_cpx.md R69, R70). -/

namespace Sys2Proof.Machine

/-- The execute phase of LDX (R69): the old value of the register is not read. -/
def ldxBody (r : BitVec 3) (n : Byte) (_ : Fetched) (s : State) : Except Fault Effect :=
  .ok ⟨s.setX r n, false⟩

/-- LDX, load index register with literal (R69). -/
def execLdx (r : BitVec 3) (n : Byte) (s : State) : Host.Outcome State Fault Refusal := perform (ldxBody r n) s

/-- The execute phase of CPX (R70). -/
def cpxBody (r : BitVec 3) (n : Byte) (c : Fetched) (s : State) : Except Fault Effect :=
  match readX c s r with
  | .error f => .error f
  | .ok v => .ok ⟨s.setCmp (compareBytes v n), false⟩

/-- CPX, compare index register with literal (R70). -/
def execCpx (r : BitVec 3) (n : Byte) (s : State) : Host.Outcome State Fault Refusal := perform (cpxBody r n) s

end Sys2Proof.Machine
end

