-- ==== Sys2Proof/Machine/InputOutput.lean ====
section
/-! DEFINITION. IOC and the tape transfer (42_ioc.md R71 to R74). -/

namespace Sys2Proof.Machine

/-- The function code of "transfer byte blocking" (R71). -/
def transferByteBlocking : Byte := 0o007#8

/-- The transfer: the current tape's next byte into `ACC`, its cursor moved on (R72, R73). It never waits (R74). -/
def transferByte (t : TapeId) (s : State) : State := (s.setAcc (tapeByte s t)).advanceTape t

/-- The execute phase of IOC (R73): channel, then function code, then binding are checked in that order. -/
def iocBody (channel : BitVec 3) (function : Byte) (c : Fetched) (s : State) : Except Fault Effect :=
  if 3 ≤ channel.toNat then .error (.unimplementedOperation c.iaw c.word channel function)
  else if function ≠ transferByteBlocking then .error (.unimplementedOperation c.iaw c.word channel function)
  else
    match boundTape s channel with
    | none => .error (.noCurrentTape c.iaw c.word channel function)
    | some t => .ok ⟨transferByte t { s with curTape := some t }, false⟩

/-- IOC, I/O control (R73). -/
def execIoc (channel : BitVec 3) (function : Byte) (s : State) : Host.Outcome State Fault Refusal :=
  perform (iocBody channel function) s

end Sys2Proof.Machine
end

