-- ==== Sys2Proof/Machine/Store.lean ====
section
/-! DEFINITION. STA (indirect) (43_sta.md R75). -/

namespace Sys2Proof.Machine

/-- The part of STA's execute phase after its mode is known to be one of the three (R75): the two register reads, the
hazard check (R102), the store and the post-modification, in that order. -/
def staStore (mode : IndexMode) (r : BitVec 3) (page : BitVec 6) (c : Fetched) (s : State) : Except Fault Effect :=
  match readX c s r with
  | .error f => .error f
  | .ok x =>
    match readAcc c s with
    | .error f => .error f
    | .ok v =>
      if inActiveSlot s (indirectAddr page x) then .error (.iawHazard c.iaw c.word (indirectAddr page x))
      else
        match memWrite s (some c.iaw) (indirectAddr page x).toNat v with
        | .error f => .error f
        | .ok t => .ok ⟨postModify t mode r x, false⟩

/-- The execute phase of STA (R75): a reserved mode code faults before anything is read. -/
def staBody (r : BitVec 3) (code : BitVec 2) (page : BitVec 6) (c : Fetched) (s : State) : Except Fault Effect :=
  match s.cfg.modeMap.modeOf code with
  | .reserved => .error (.reservedIndexingMode c.iaw c.word)
  | .unchanged => staStore .unchanged r page c s
  | .increment => staStore .increment r page c s
  | .decrement => staStore .decrement r page c s

/-- STA (indirect), store accumulator (R75). -/
def execSta (r : BitVec 3) (mode : BitVec 2) (page : BitVec 6) (s : State) : Host.Outcome State Fault Refusal :=
  perform (staBody r mode page) s

end Sys2Proof.Machine
end

