-- ==== Sys2Proof/Machine/TestJump.lean ====
section
/-! DEFINITION. The test-and-jump family: named types with no execution rule (45_unimplemented.md R78 to R81). -/

namespace Sys2Proof.Machine

/-- TLJ (R78): every TLJ word faults UnimplementedInstruction. -/
def execTlj (_dir : BitVec 1) (_count : BitVec 4) (_literal : Byte) (s : State) :
    Host.Outcome State Fault Refusal :=
  perform unimplementedBody s

/-- TLX (R79): faults UnimplementedInstruction. -/
def execTlx (s : State) : Host.Outcome State Fault Refusal := perform unimplementedBody s

/-- TMJ (R80): every TMJ word faults UnimplementedInstruction. -/
def execTmj (_dir : BitVec 1) (_count : BitVec 4) (_mask : Byte) (s : State) :
    Host.Outcome State Fault Refusal :=
  perform unimplementedBody s

/-- TMX (R81): faults UnimplementedInstruction. -/
def execTmx (s : State) : Host.Outcome State Fault Refusal := perform unimplementedBody s

end Sys2Proof.Machine
end

