-- ==== Sys2Proof/Machine/UnknownType.lean ====
section
/-! DEFINITION. The Unknown row (45_unimplemented.md R83). -/

namespace Sys2Proof.Machine

/-- A word that classifies as Unknown (R83): faults UnknownInstruction. -/
def execUnknown (_w : Word) (s : State) : Host.Outcome State Fault Refusal := perform unknownBody s

end Sys2Proof.Machine
end

