-- ==== Sys2Proof/Machine/Dispatch.lean ====
section
/-! DEFINITION. The dispatch on the instruction (40_cycle.md R66). -/

namespace Sys2Proof.Machine

def exec (i : Instr) (s : State) : Host.Outcome State Fault Refusal :=
  match i with
  | .tlj dir count literal => Sys2Proof.Machine.execTlj dir count literal s
  | .tlx => Sys2Proof.Machine.execTlx s
  | .tmj dir count mask => Sys2Proof.Machine.execTmj dir count mask s
  | .tmx => Sys2Proof.Machine.execTmx s
  | .bru target => Sys2Proof.Machine.execBru target s
  | .brl target => Sys2Proof.Machine.execBrl target s
  | .ldx r n => Sys2Proof.Machine.execLdx r n s
  | .cpx r n => Sys2Proof.Machine.execCpx r n s
  | .sta r mode page => Sys2Proof.Machine.execSta r mode page s
  | .ioc channel function => Sys2Proof.Machine.execIoc channel function s
  | .unknown w => Sys2Proof.Machine.execUnknown w s

end Sys2Proof.Machine
end

