-- ==== Sys2Proof/Machine/Step.lean ====
section
/-! DEFINITION. One step of the engine (40_cycle.md R65) and the placing of a program word. -/

namespace Sys2Proof.Machine

/-- One step (R65): defined only while no fault is recorded; the word at the active IAW is fetched, decoded and
executed. A word of a named type without a constructor faults as R82 says. -/
def step (s : State) : Host.Outcome State Fault Refusal :=
  match s.fault with
  | some f => .refused (.engineStopped f)
  | none =>
    match fetch s with
    | .error f => .fault f
    | .ok c =>
      match decode s.cfg c.word with
      | .ok i => exec i s
      | .error _ => performUnhandled s

/-- `s` with the table word `w` stored where its next step fetches (log entry 5). -/
def State.withFetchWord (s : State) (nbits w : Nat) : State := placeFetchWord s nbits w

end Sys2Proof.Machine
end

