-- ==== Sys2Proof/Machine/Dump.lean ====
section
/-! DEFINITION. The diagnostic dump: a read-only observation of the state (60_exceptions.md R94). -/

namespace Sys2Proof.Machine

/-- One stack slot as the dump shows it: its number, whether it is the active one, and the text of the address it holds
(none where it holds no readable address). -/
structure DumpSlot where
  number : Nat
  active : Bool
  text   : Option Text
  deriving DecidableEq, Repr

/-- What the dump shows (R94). An absent text is an unwritten or unreadable cell. -/
structure Dump where
  iaw         : Option Text
  instruction : Option Text
  slots       : List DumpSlot
  acc         : Option Text
  index       : List (Nat × Option Text)
  cmp         : Char
  deriving DecidableEq, Repr

/-- The letter of the compare flag (R94, decision D24). -/
def cmpLetter : Cmp → Char
  | .low => 'L'
  | .equal => 'E'
  | .high => 'H'

/-- The address of slot `k` (R22). -/
def slotAt (cfg : Config) (k : Nat) : Nat := cfg.iawBase.toNat + 2 * k

/-- Slot `k` as the dump shows it. -/
def dumpSlot (s : State) (k : Nat) : DumpSlot where
  number := k
  active := s.sp.toNat == k
  text :=
    match readAddrWord s (slotAt s.cfg k) with
    | .ok a => some (renderAddress a)
    | .error _ => none

/-- The diagnostic dump (R94): it reads the state and returns nothing else. The labels of the registers are
`REG_NAME`'s (R12, decision D7). -/
def dump (s : State) : Dump where
  iaw :=
    match activeIaw s with
    | .ok a => some (renderAddress a)
    | .error _ => none
  instruction :=
    match fetch s with
    | .ok c => some (disassemble s.cfg c.word)
    | .error _ => none
  slots := (List.range 8).map (dumpSlot s)
  acc := s.acc.map octalByte
  index := (List.range 8).map fun k => (s.cfg.regName.getD k k, (s.cell (BitVec.ofNat 3 k)).map octalByte)
  cmp := cmpLetter s.cmp

end Sys2Proof.Machine
end

