-- ==== Sys2Proof/Machine/Launch.lean ====
section
/-! DEFINITION. The host's side (70_reset_and_hazards.md R96 to R101): reset, load, launch, the recording of a fault
(60_exceptions.md R85) and the end of a run. -/

namespace Sys2Proof.Machine

/-- `reset()` (R96). `X` and `ACC` are not written, nor any byte of memory but slot 0's. It can fail only where slot 0
does not lie inside memory, which R21 forbids. -/
def resetOp (s : State) : Except Fault State :=
  writeAddrWord { s with sp := 0#5, cmp := .equal, curTape := none, cur1 := 0, cur2 := 0, fault := none } none
    (slotAddr { s with sp := 0#5 }).toNat entryPoint

/-- Bytes written one after the other from `start` on. -/
def Memory.writeBytes : Memory → Nat → List Byte → Memory
  | m, _, [] => m
  | m, start, b :: rest => Memory.writeBytes (Memory.write m start b) (start + 1) rest

/-- `load(start, bytes)` (R97): refused, with nothing changed, where it would overrun memory. -/
def load (s : State) (start : Nat) (bytes : List Byte) : Option State :=
  if start + bytes.length ≤ memSize then some { s with mem := Memory.writeBytes s.mem start bytes } else none

/-- The loads of a launch, one after the other (R98). -/
def loadAll (s : State) : List (Nat × List Byte) → Option State
  | [] => some s
  | l :: rest =>
    match load s l.1 l.2 with
    | some t => loadAll t rest
    | none => none

/-- A launch up to its first step (R98): from the launch memory and registers of `s0` (whose `cfg` holds the tapes and
the stop address), the loads, then reset. None where a load is refused or slot 0 lies outside memory. -/
def launch (s0 : State) (loads : List (Nat × List Byte)) : Option State :=
  match loadAll s0 loads with
  | none => none
  | some s =>
    match resetOp s with
    | .ok t => some t
    | .error _ => none

/-- A step as the host sees it (R85): a fault commits nothing and is recorded in `FAULT`; once one is recorded nothing
changes any more. -/
def hostStep (s : State) : State :=
  match step s with
  | .next t => t
  | .fault f => { s with fault := some f }
  | .refused _ => s

/-- How a run stands (R67, R101). -/
inductive RunEnd where
  /-- The active IAW equals `STOP` before a step: the normal end. -/
  | stopped (s : State)
  /-- A fault is recorded: the abnormal end. -/
  | faulted (s : State)
  /-- The host made all the steps it was given and neither end was reached. -/
  | running (s : State)
  deriving DecidableEq, Repr

/-- Whether the active IAW equals `STOP` (R101). -/
def atStop (s : State) : Bool :=
  match s.cfg.stop, activeIaw s with
  | some a, .ok b => a == b
  | _, _ => false

/-- A run of at most `k` steps (R101). A faulted state is never a normal end (R67), so `FAULT` is looked at first
(log entry 14). -/
def runToStop : Nat → State → RunEnd
  | 0, s => if s.fault.isSome then .faulted s else if atStop s then .stopped s else .running s
  | k + 1, s =>
    if s.fault.isSome then .faulted s else if atStop s then .stopped s else runToStop k (hostStep s)

/-- The numeric code of a fault kind (R84). -/
def Fault.code : Fault → Nat
  | .unknownInstruction _ _ _ => 1
  | .unimplementedInstruction _ _ _ => 2
  | .unimplementedOperation _ _ _ _ => 3
  | .boundsViolation _ _ => 4
  | .unwrittenRegister _ _ _ => 5
  | .unwrittenMemory _ _ => 6
  | .reservedIndexingMode _ _ => 7
  | .iawNonCanonical _ _ => 8
  | .iawHazard _ _ _ => 9
  | .noCurrentTape _ _ _ _ => 10

end Sys2Proof.Machine
end

