-- ==== Sys2Proof/Safety.lean ====
section
/-! DEFINITION. The terms the claims are stated in: frames between two states, and the invariant of a run. -/

namespace Sys2Proof.Machine

/-- The bytes of the active IAW slot (R22). -/
def SlotByte (s : State) (a : Nat) : Prop := a = (slotAddr s).toNat ∨ a = (slotAddr s).toNat + 1

/-- Every byte of memory outside `stored` reads in `t` as it read in `s`. -/
def SameMemoryOutside (stored : Nat → Prop) (s t : State) : Prop :=
  ∀ a, ¬ stored a → Memory.read t.mem a = Memory.read s.mem a

/-- All eight index registers are as they were. -/
def SameIndex (s t : State) : Prop := ∀ q, t.cell q = s.cell q

/-- All index registers but `r` are as they were. -/
def SameIndexBut (r : BitVec 3) (s t : State) : Prop := ∀ q, q ≠ r → t.cell q = s.cell q

/-- The tape binding and both cursors are as they were. -/
def SameTapes (s t : State) : Prop := t.curTape = s.curTape ∧ t.cur1 = s.cur1 ∧ t.cur2 = s.cur2

/-- The stack pointer, the fault record and the launch parameters are as they were. -/
def SameControl (s t : State) : Prop := t.sp = s.sp ∧ t.fault = s.fault ∧ t.cfg = s.cfg

/-- What every step of a run keeps (log entry 1 for the registers): memory in canonical form, the IAW slots inside
memory, a readable active IAW, every register written, no fault recorded. -/
structure Inv (s : State) : Prop where
  memory    : Memory.wf s.mem = true
  slotsFit  : s.cfg.iawBase.toNat + 63 ≤ 16383
  iaw       : ∃ a, activeIaw s = .ok a
  index     : ∀ r, s.cell r ≠ none
  acc       : s.acc ≠ none
  noFault   : s.fault = none

/-- The state with other tapes: its tape contents are the launch's input, read by IOC alone (R72). -/
def State.withTapes (s : State) (t1 t2 : List Byte) : State :=
  { s with cfg := { s.cfg with tape1 := t1, tape2 := t2 } }

/-- The outcome with the next state's tapes replaced. -/
def withTapesOutcome (t1 t2 : List Byte) : Host.Outcome State Fault Refusal → Host.Outcome State Fault Refusal
  | .next s => .next (s.withTapes t1 t2)
  | .fault f => .fault f
  | .refused r => .refused r

/-- `k` tape transfers from one tape, one after the other. -/
def transfers (t : TapeId) : Nat → State → State
  | 0, s => s
  | k + 1, s => transfers t k (transferByte t s)

end Sys2Proof.Machine
end

