-- ==== Sys2Proof/Certificates/Slice0/Obligations.lean ====
section
/-! DEFINITION. The statements for the provers. Each docstring names the rules of spec/ it formalises. -/

open Sys2Proof Sys2Proof.Machine

/-! ### Encoding and classification -/

/-- Decoding the word of a well-formed instruction gives the instruction back, every operand at every value (30_encoding.md
R54, R56, the default parameters). -/
def Obligations.DecodeEncodeRoundTrip : Prop :=
  ∀ i : Instr, i.wellFormed = true → decode Config.default (encode i) = .ok i

/-- Under the default parameters every one of the 65536 words decodes, to a well-formed instruction whose word it is
(R60; R61). -/
def Obligations.EveryWordDecodes : Prop :=
  ∀ w : Word, ∃ i : Instr, decode Config.default w = .ok i ∧ i.wellFormed = true ∧ encode i = w

/-- Words of spec/95_test_vectors.md and of the rules' examples, written out bit by bit, decode to what they stand for. -/
def Obligations.WrittenWordsDecode : Prop :=
  decode Config.default 0b0001000000100010#16 = .ok (.tlj 1#1 0#4 34#8) ∧
  decode Config.default 0b0000000000000000#16 = .ok .tlx ∧
  decode Config.default 0b0010001110000001#16 = .ok (.tmj 0#1 3#4 0b10000001#8) ∧
  decode Config.default 0b0010000000000000#16 = .ok .tmx ∧
  decode Config.default 0b0100001000000000#16 = .ok (.bru 0x0200#14) ∧
  decode Config.default 0b0100100000000010#16 = .ok (.brl 0x0802#14) ∧
  decode Config.default 0b1000001100000101#16 = .ok (.ldx 3#3 5#8) ∧
  decode Config.default 0b1000101100000110#16 = .ok (.cpx 3#3 6#8) ∧
  decode Config.default 0b1001000101010000#16 = .ok (.sta 1#3 1#2 0o20#6) ∧
  decode Config.default 0b1001100100000111#16 = .ok (.ioc 1#3 0o007#8) ∧
  decode Config.default 0b1010000000000000#16 = .ok (.unknown 0xA000#16)

/-- The opcode map of the default table, by ranges of words (R61). -/
def Obligations.OpcodeMap : Prop :=
  ∀ w : Word, classify defaultDefs w =
    (if w.toNat = 0x0000 then .tlx
     else if w.toNat ≤ 0x1FFF then .tlj
     else if w.toNat = 0x2000 then .tmx
     else if w.toNat ≤ 0x3FFF then .tmj
     else if w.toNat ≤ 0x47FF then .bru
     else if w.toNat ≤ 0x4FFF then .brl
     else if w.toNat ≤ 0x7FFF then .unknown
     else if w.toNat ≤ 0x87FF then .ldx
     else if w.toNat ≤ 0x8FFF then .cpx
     else if w.toNat ≤ 0x97FF then .sta
     else if w.toNat ≤ 0x9FFF then .ioc
     else .unknown)

/-- For ANY definition table: a word's type is that of a matching row which no matching row before it exceeds in fixed
bits and which exceeds every matching row after it; a word no row matches is Unknown (R58, R59). -/
def Obligations.MostSpecificRowWins : Prop :=
  ∀ (defs : List DefRow) (w : Word),
    (∃ before d after, defs = before ++ d :: after ∧ d.matchesWord w = true ∧ classify defs w = d.type ∧
      (∀ e ∈ before, e.matchesWord w = true → popcount e.mask ≤ popcount d.mask) ∧
      (∀ e ∈ after, e.matchesWord w = true → popcount e.mask < popcount d.mask)) ∨
    ((∀ d ∈ defs, d.matchesWord w = false) ∧ classify defs w = .unknown)

/-- The source's disassembly fixtures and the examples of R63, and the octal text of R83. -/
def Obligations.DisassemblyExamples : Prop :=
  disassemble Config.default 0x1022#16 = ['T', 'L', 'J', ' ', '0', ' ', '3', '4'] ∧
  disassemble Config.default 0x802A#16 = ['L', 'D', 'X', ' ', 'R', '#', '0', ' ', '4', '2'] ∧
  disassemble Config.default 0x4200#16 = ['B', 'R', 'U', ' ', 'P', '0', '2', '-', '0', '0', '0'] ∧
  disassemble Config.default 0x9907#16 =
    ['I', 'O', 'C', ' ', 'C', '#', '1', ' ', ';', ' ', 't', 'a', 'p', 'e', ' ', '#', '1', ' ', 't', 'a', 'p',
      'e', ' ', 't', 'r', 'a', 'n', 's', 'f', 'e', 'r', ' ', 'b', 'y', 't', 'e', ' ', 'b', 'l', 'o', 'c',
      'k', 'i', 'n', 'g'] ∧
  disassemble Config.default 0xA000#16 = ['?', '?', '?'] ∧
  octalWord 0xA000#16 = ['2', '4', '0', '-', '0', '0', '0']

/-- The default parameters keep every pattern fact the source states (R57), with one row for each type (R55) and the
IAW slots inside memory (R21). -/
def Obligations.DefaultParametersAreAdmissible : Prop := Config.Admissible Config.default

/-! ### Addresses -/

/-- Construction of and access to addresses (R29). -/
def Obligations.AddressConstructionAndAccess : Prop :=
  (∀ (s l : BitVec 3) (loc : Byte),
    (addrOfSection s l loc).toNat = s.toNat * 2048 + l.toNat * 256 + loc.toNat ∧
    (addrOfSection s l loc).sectionOf = s ∧ (addrOfSection s l loc).levelOf = l ∧
    (addrOfSection s l loc).pageOf.toNat = s.toNat * 8 + l.toNat ∧ (addrOfSection s l loc).locationOf = loc) ∧
  (∀ (p : BitVec 6) (loc : Byte),
    (addrOfPage p loc).toNat = p.toNat * 256 + loc.toNat ∧ (addrOfPage p loc).pageOf = p ∧
    (addrOfPage p loc).locationOf = loc) ∧
  (∀ v : Nat, v < 16384 → ∃ a, addrOfLinear v = some a ∧ a.toNat = v) ∧
  (∀ v : Nat, 16384 ≤ v → addrOfLinear v = none) ∧
  (∀ a : Addr, addrOfLinear a.toNat = some a ∧ addrOfPage a.pageOf a.locationOf = a ∧
    addrOfSection a.sectionOf a.levelOf a.locationOf = a) ∧
  (∀ (a : Addr) (s : BitVec 3), (a.withSection s).sectionOf = s ∧ (a.withSection s).levelOf = a.levelOf ∧
    (a.withSection s).locationOf = a.locationOf) ∧
  (∀ (a : Addr) (l : BitVec 3), (a.withLevel l).levelOf = l ∧ (a.withLevel l).sectionOf = a.sectionOf ∧
    (a.withLevel l).locationOf = a.locationOf) ∧
  (∀ (a : Addr) (p : BitVec 6), (a.withPage p).pageOf = p ∧ (a.withPage p).locationOf = a.locationOf) ∧
  (∀ (a : Addr) (loc : Byte), (a.withLocation loc).locationOf = loc ∧ (a.withLocation loc).pageOf = a.pageOf)

/-- The advance by two wraps at the top of the address space (R30). -/
def Obligations.NextInstructionWraps : Prop :=
  ∀ a : Addr, a.nextInstruction.toNat = (a.toNat + 2) % 16384

/-- An address read back from its text is the address, and each of R10's four checks, in its order, refuses a text
(R10). A text that passes them and has a location above 0o377 is refused too: log entry 12, the model's choice. -/
def Obligations.AddressTextRoundTrip : Prop :=
  (∀ a : Addr, parseAddress (renderAddress a) = .ok a) ∧
  (∀ t : Text, t.length ≠ 7 → parseAddress t = .error .length) ∧
  (∀ t : Text, t.length = 7 → t.head? ≠ some 'P' → parseAddress t = .error .page) ∧
  (∀ t : Text, t.length = 7 → t.head? = some 'P' → t[3]? ≠ some '-' → parseAddress t = .error .dash) ∧
  (∀ (t : Text) (k : Nat) (c : Char), t.length = 7 → t.head? = some 'P' → t[3]? = some '-' → k ≠ 0 → k ≠ 3 →
    t[k]? = some c → ¬ ('0' ≤ c ∧ c ≤ '7') → parseAddress t = .error .digit)

/-! ### Memory -/

/-- The memory port: a written cell reads as written, every other cell as before, an unwritten cell faults, an address
of 16384 or above faults (R31). -/
def Obligations.MemoryPortRules : Prop :=
  ∀ (s : State) (iaw : Option Addr) (a : Nat) (v : Byte),
    (a < 16384 → (∀ b, Memory.read s.mem a = some b → memRead s iaw a = .ok b) ∧
      (Memory.read s.mem a = none → memRead s iaw a = .error (.unwrittenMemory iaw a)) ∧
      ∃ t, memWrite s iaw a v = .ok t ∧ memRead t iaw a = .ok v ∧
        (∀ b, b ≠ a → memRead t iaw b = memRead s iaw b) ∧ t = { s with mem := t.mem }) ∧
    (16384 ≤ a → memRead s iaw a = .error (.boundsViolation iaw a) ∧
      memWrite s iaw a v = .error (.boundsViolation iaw a))

/-- Two memories in canonical form that read alike everywhere are the same list. -/
def Obligations.CanonicalMemoryIsUnique : Prop :=
  ∀ m n : Memory, Memory.wf m = true → Memory.wf n = true → (∀ a, Memory.read m a = Memory.read n a) → m = n

/-- `FetchWord` (R32), under `WORD_ORDER = left_first`, with its faults in their order. -/
def Obligations.FetchWordRules : Prop :=
  ∀ (s : State) (a : Addr), s.cfg.wordOrder = .leftFirst →
    (Memory.read s.mem a.toNat = none → fetchWord s a = .error (.unwrittenMemory (some a) a.toNat)) ∧
    (∀ left, Memory.read s.mem a.toNat = some left →
      (a.toNat = 0x3FFF → fetchWord s a = .error (.boundsViolation (some a) 0x4000)) ∧
      (a.toNat < 0x3FFF → Memory.read s.mem (a.toNat + 1) = none →
        fetchWord s a = .error (.unwrittenMemory (some a) (a.toNat + 1))) ∧
      (∀ right, a.toNat < 0x3FFF → Memory.read s.mem (a.toNat + 1) = some right →
        fetchWord s a = .ok (left ++ right)))

/-- `ReadAddrWord` (R33), under `ADDR_WORD_ORDER = page_first`. -/
def Obligations.ReadAddrWordRules : Prop :=
  ∀ (s : State) (slot : Nat), s.cfg.addrWordOrder = .pageFirst → slot + 1 < 16384 →
    (Memory.read s.mem slot = none → readAddrWord s slot = .error (.unwrittenMemory none slot)) ∧
    (∀ p, Memory.read s.mem slot = some p →
      (Memory.read s.mem (slot + 1) = none → readAddrWord s slot = .error (.unwrittenMemory none (slot + 1))) ∧
      (∀ loc, Memory.read s.mem (slot + 1) = some loc →
        (64 ≤ p.toNat → readAddrWord s slot = .error (.iawNonCanonical slot p)) ∧
        (p.toNat < 64 → ∃ a, readAddrWord s slot = .ok a ∧ a.toNat = p.toNat * 256 + loc.toNat)))

/-- `WriteAddrWord` (R34): under either byte order the address reads back; under `page_first` its page byte, with 0 in
bits 7:6, is the one at the lower address; every other byte and all other state stays. -/
def Obligations.WriteAddrWordReadsBack : Prop :=
  ∀ (s : State) (iaw : Option Addr) (slot : Nat) (a : Addr), slot + 1 < 16384 →
    ∃ t, writeAddrWord s iaw slot a = .ok t ∧ readAddrWord t slot = .ok a ∧
      (s.cfg.addrWordOrder = .pageFirst →
        Memory.read t.mem slot = some (a.pageOf.setWidth 8) ∧ Memory.read t.mem (slot + 1) = some a.locationOf) ∧
      (∀ b, b ≠ slot → b ≠ slot + 1 → Memory.read t.mem b = Memory.read s.mem b) ∧ t = { s with mem := t.mem }

/-- The slot address does not wrap where the slots fit (R21). -/
def Obligations.SlotAddressInsideMemory : Prop :=
  ∀ s : State, s.cfg.iawBase.toNat + 63 ≤ 16383 →
    (slotAddr s).toNat = s.cfg.iawBase.toNat + 2 * s.sp.toNat ∧ (slotAddr s).toNat + 1 < 16384

/-! ### The step -/

/-- A step whose bytes at the active IAW decode runs the instruction they decode to, which sees that IAW and that word
(R65). -/
def Obligations.StepRunsDecodedInstruction : Prop :=
  ∀ (s : State) (a : Addr) (first second : Byte) (i : Instr), s.fault = none → activeIaw s = .ok a →
    a.toNat + 1 < 16384 → Memory.read s.mem a.toNat = some first → Memory.read s.mem (a.toNat + 1) = some second →
    decodeBytes s.cfg [first, second] = .ok (i, []) →
    step s = exec i s ∧ fetch s = .ok ⟨a, composeWord s.cfg.wordOrder first second⟩

/-- A named type of a longer `DEFS` that has no rule faults UnimplementedInstruction with its disassembly (R82). -/
def Obligations.UnnamedTypesFault : Prop :=
  ∀ (s : State) (c : Fetched) (n : Nat), s.fault = none → fetch s = .ok c →
    classify s.cfg.defs c.word = .other n →
    step s = .fault (.unimplementedInstruction c.iaw c.word (disassemble s.cfg c.word)) ∧
    hostStep s = { s with fault := some (.unimplementedInstruction c.iaw c.word (disassemble s.cfg c.word)) }

/-- The faults of the first two phases come before anything the instruction could raise (R86, items 1 and 2). -/
def Obligations.FetchFaultsComeFirst : Prop :=
  ∀ (s : State) (f : Fault), s.fault = none →
    (activeIaw s = .error f → step s = .fault f) ∧
    (∀ a, activeIaw s = .ok a → fetchWord s a = .error f → step s = .fault f)

/-- Once a fault is recorded, step is not defined and the host's step changes nothing (R65, R85). -/
def Obligations.NoStepAfterFault : Prop :=
  ∀ (s : State) (f : Fault), s.fault = some f → step s = .refused (.engineStopped f) ∧ hostStep s = s

/-- A faulting step commits nothing: the state is the one before it plus the record, and stays so (R85). -/
def Obligations.FaultsArePrecise : Prop :=
  ∀ (s : State) (f : Fault), step s = .fault f →
    hostStep s = { s with fault := some f } ∧ hostStep (hostStep s) = hostStep s

/-- While no fault is recorded, every step answers a next state or a fault the spec names, for every word and every
parameter (R60, R65, R66). -/
def Obligations.RunningEngineNeverRefuses : Prop :=
  ∀ s : State, s.fault = none → (∃ t, step s = .next t) ∨ ∃ f, step s = .fault f

/-- No step writes the stack pointer or the launch parameters, and none that answers a next state leaves a fault (R19,
R11). -/
def Obligations.StepKeepsStackPointerAndParameters : Prop :=
  ∀ s t : State, step s = .next t → t.sp = s.sp ∧ t.cfg = s.cfg ∧ t.fault = none

/-- The active IAW is readable and canonical after every step that answers a next state, whatever the state before
(R24, R33). -/
def Obligations.IawReadableAfterEveryStep : Prop :=
  ∀ s t : State, step s = .next t → ∃ a, activeIaw t = .ok a

/-- Every step keeps the invariant `Inv`. Its clause on the registers rests on log entry 1. -/
def Obligations.StepKeepsInvariant : Prop :=
  ∀ s t : State, Inv s → step s = .next t → Inv t

/-- `Inv` holds at reset. Its clause on the registers holds by log entry 1 (the model's choice). -/
def Obligations.InvariantHoldsAtReset : Prop := Inv State.reset

/-- The faults a run can meet: from a state with `Inv` no step raises UnwrittenRegister (log entry 1), IAWNonCanonical or
an unwritten IAW slot, and BoundsViolation only for the second byte of a fetch at 0x3FFF (R31, R39, R84). -/
def Obligations.FaultsOfInvariantStates : Prop :=
  ∀ (s : State) (f : Fault), Inv s → step s = .fault f →
    (∀ iaw w reg, f ≠ .unwrittenRegister iaw w reg) ∧
    (∀ slot p, f ≠ .iawNonCanonical slot p) ∧
    (∀ a, f ≠ .unwrittenMemory none a) ∧
    (∀ iaw a, f = .boundsViolation iaw a → iaw = some 0x3FFF#14 ∧ a = 0x4000)

/-- Which instructions write which register: `CMP` only CPX, `ACC` and the tape state only IOC, an index register only LDX
and STA naming it (R14, R15, R16, R25). -/
def Obligations.OnlyNamedInstructionsWriteRegisters : Prop :=
  ∀ (i : Instr) (s t : State), exec i s = .next t →
    ((∀ r n, i ≠ .cpx r n) → t.cmp = s.cmp) ∧
    ((∀ h f, i ≠ .ioc h f) → t.acc = s.acc ∧ SameTapes s t) ∧
    (∀ q, (∀ n, i ≠ .ldx q n) → (∀ m p, i ≠ .sta q m p) → t.cell q = s.cell q)

/-- Memory outside the active IAW slot is written only by STA, and by STA only at its target (R36, R40, R42). -/
def Obligations.OnlyStaWritesMemory : Prop :=
  ∀ (i : Instr) (s t : State), exec i s = .next t →
    ((∀ r m p, i ≠ .sta r m p) → SameMemoryOutside (SlotByte s) s t) ∧
    (∀ r m p x, i = .sta r m p → s.cell r = some x →
      SameMemoryOutside (fun a => SlotByte s a ∨ a = (indirectAddr p x).toNat) s t)

/-- After any step the IAW is the next word's address, or, with `CMP` Low, an address in the same section (R24, R76). -/
def Obligations.StepsStayInSectionOrAdvance : Prop :=
  ∀ (s t : State) (c : Fetched), fetch s = .ok c → step s = .next t →
    ∃ a, activeIaw t = .ok a ∧
      (a = c.iaw.nextInstruction ∨ (s.cmp = .low ∧ a.sectionOf = c.iaw.sectionOf))

/-- Only IOC depends on the tapes: on any other instruction two machines that differ in their tapes alone answer alike
(R72, R73). -/
def Obligations.TapesReachOnlyIoc : Prop :=
  ∀ (i : Instr) (s : State) (t1 t2 : List Byte), (∀ h f, i ≠ .ioc h f) →
    exec i (s.withTapes t1 t2) = withTapesOutcome t1 t2 (exec i s)

/-! ### Instructions -/

/-- LDX (R69): its encoding, its effect and its frame. -/
def Obligations.LdxLoadsLiteral : Prop :=
  (∀ (r : BitVec 3) (n : Byte), decode Config.default (0b10000#5 ++ r ++ n) = .ok (.ldx r n)) ∧
  ∀ (s : State) (c : Fetched) (r : BitVec 3) (n : Byte), fetch s = .ok c →
    ∃ t, exec (.ldx r n) s = .next t ∧ t.cell r = some n ∧ SameIndexBut r s t ∧ t.acc = s.acc ∧ t.cmp = s.cmp ∧
      SameTapes s t ∧ SameControl s t ∧ activeIaw t = .ok c.iaw.nextInstruction ∧
      SameMemoryOutside (SlotByte s) s t

/-- CPX (R70): its encoding, the fault on an unwritten register (R13), the unsigned comparison, and its frame. -/
def Obligations.CpxComparesUnsigned : Prop :=
  (∀ (r : BitVec 3) (n : Byte), decode Config.default (0b10001#5 ++ r ++ n) = .ok (.cpx r n)) ∧
  ∀ (s : State) (c : Fetched) (r : BitVec 3) (n : Byte), fetch s = .ok c →
    (s.cell r = none → exec (.cpx r n) s = .fault (.unwrittenRegister c.iaw c.word (.index r))) ∧
    (∀ v, s.cell r = some v →
      ∃ t, exec (.cpx r n) s = .next t ∧
        t.cmp = (if v.toNat < n.toNat then .low else if v = n then .equal else .high) ∧
        SameIndex s t ∧ t.acc = s.acc ∧ SameTapes s t ∧ SameControl s t ∧
        activeIaw t = .ok c.iaw.nextInstruction ∧ SameMemoryOutside (SlotByte s) s t)

/-- STA (R75): its encoding, its faults in the order checked, the store, the post-modification, and its frame, under any
`MODE_MAP`. -/
def Obligations.StaStoresAndPostModifies : Prop :=
  (∀ (r : BitVec 3) (m : BitVec 2) (p : BitVec 6),
    decode Config.default (0b10010#5 ++ r ++ m ++ p) = .ok (.sta r m p)) ∧
  ∀ (s : State) (c : Fetched) (r : BitVec 3) (m : BitVec 2) (p : BitVec 6), fetch s = .ok c →
    (s.cfg.modeMap.modeOf m = .reserved → exec (.sta r m p) s = .fault (.reservedIndexingMode c.iaw c.word)) ∧
    (s.cfg.modeMap.modeOf m ≠ .reserved →
      (s.cell r = none → exec (.sta r m p) s = .fault (.unwrittenRegister c.iaw c.word (.index r))) ∧
      (∀ x, s.cell r = some x →
        (s.acc = none → exec (.sta r m p) s = .fault (.unwrittenRegister c.iaw c.word .accumulator)) ∧
        (∀ v, s.acc = some v →
          (SlotByte s (indirectAddr p x).toNat →
            exec (.sta r m p) s = .fault (.iawHazard c.iaw c.word (indirectAddr p x))) ∧
          (¬ SlotByte s (indirectAddr p x).toNat →
            ∃ t, exec (.sta r m p) s = .next t ∧
              (indirectAddr p x).toNat = p.toNat * 256 + x.toNat ∧
              Memory.read t.mem (indirectAddr p x).toNat = some v ∧
              (s.cfg.modeMap.modeOf m = .increment → t.cell r = some (BitVec.ofNat 8 ((x.toNat + 1) % 256))) ∧
              (s.cfg.modeMap.modeOf m = .decrement → t.cell r = some (BitVec.ofNat 8 ((x.toNat + 255) % 256))) ∧
              (s.cfg.modeMap.modeOf m = .unchanged → t.cell r = some x) ∧
              SameIndexBut r s t ∧ t.acc = s.acc ∧ t.cmp = s.cmp ∧ SameTapes s t ∧ SameControl s t ∧
              activeIaw t = .ok c.iaw.nextInstruction ∧
              SameMemoryOutside (fun a => SlotByte s a ∨ a = (indirectAddr p x).toNat) s t))))

/-- IOC (R73): its encoding, its faults in the order checked, the binding, the transfer, and its frame. -/
def Obligations.IocTransfersTapeByte : Prop :=
  (∀ (h : BitVec 3) (f : Byte), decode Config.default (0b10011#5 ++ h ++ f) = .ok (.ioc h f)) ∧
  ∀ (s : State) (c : Fetched) (h : BitVec 3) (f : Byte), fetch s = .ok c →
    (3 ≤ h.toNat → exec (.ioc h f) s = .fault (.unimplementedOperation c.iaw c.word h f)) ∧
    (h.toNat < 3 → f ≠ 0o007#8 → exec (.ioc h f) s = .fault (.unimplementedOperation c.iaw c.word h f)) ∧
    (h = 0#3 → s.curTape = none → exec (.ioc h 0o007#8) s = .fault (.noCurrentTape c.iaw c.word h 0o007#8)) ∧
    (∀ tape, h.toNat < 3 →
      (if h = 1#3 then some TapeId.tape1 else if h = 2#3 then some TapeId.tape2 else s.curTape) = some tape →
      ∃ t, exec (.ioc h 0o007#8) s = .next t ∧ t.curTape = some tape ∧
        (∀ k : s.cursor tape < (tapeBytes s.cfg tape).length, t.acc = some (tapeBytes s.cfg tape)[s.cursor tape]) ∧
        ((tapeBytes s.cfg tape).length ≤ s.cursor tape → t.acc = some 0xFF#8) ∧
        t.cursor tape = s.cursor tape + 1 ∧ (∀ u, u ≠ tape → t.cursor u = s.cursor u) ∧
        SameIndex s t ∧ t.cmp = s.cmp ∧ SameControl s t ∧ activeIaw t = .ok c.iaw.nextInstruction ∧
        SameMemoryOutside (SlotByte s) s t)

/-- Successive transfers read a tape's bytes in order, then the sentinel on every later read; the cursor moves on by one
each time, the other tape's cursor and both tapes stay (R72). -/
def Obligations.TransfersReadTapeInOrder : Prop :=
  ∀ (tape : TapeId) (s : State) (k : Nat),
    (transfers tape k s).cursor tape = s.cursor tape + k ∧
    (∀ h : s.cursor tape + k < (tapeBytes s.cfg tape).length,
      (transfers tape (k + 1) s).acc = some (tapeBytes s.cfg tape)[s.cursor tape + k]) ∧
    ((tapeBytes s.cfg tape).length ≤ s.cursor tape + k → (transfers tape (k + 1) s).acc = some 0xFF#8) ∧
    (∀ u, u ≠ tape → (transfers tape k s).cursor u = s.cursor u) ∧ (transfers tape k s).cfg = s.cfg

/-- BRL (R76): its encoding, the branch inside the current section when `CMP` is Low, the advance otherwise, and its
frame. -/
def Obligations.BrlBranchesOnLow : Prop :=
  (∀ (l : BitVec 3) (loc : Byte),
    decode Config.default (0b01001#5 ++ l ++ loc) = .ok (.brl (addrOfSection 1#3 l loc))) ∧
  ∀ (s : State) (c : Fetched) (a : Addr), fetch s = .ok c →
    (s.cmp = .low →
      ∃ t, exec (.brl a) s = .next t ∧ activeIaw t = .ok (addrOfSection c.iaw.sectionOf a.levelOf a.locationOf) ∧
        SameIndex s t ∧ t.acc = s.acc ∧ t.cmp = s.cmp ∧ SameTapes s t ∧ SameControl s t ∧
        SameMemoryOutside (SlotByte s) s t) ∧
    (s.cmp ≠ .low →
      ∃ t, exec (.brl a) s = .next t ∧ activeIaw t = .ok c.iaw.nextInstruction ∧
        SameIndex s t ∧ t.acc = s.acc ∧ t.cmp = s.cmp ∧ SameTapes s t ∧ SameControl s t ∧
        SameMemoryOutside (SlotByte s) s t)

/-- TLJ, TMJ and BRU (R78, R80, R77): their encodings, and the fault UnimplementedInstruction, always, with the IAW, the
word and the disassembly. -/
def Obligations.TljTmjBruAlwaysFault : Prop :=
  (∀ (d : BitVec 1) (n : BitVec 4) (b : Byte), ¬ (d = 0#1 ∧ n = 0#4 ∧ b = 0#8) →
    decode Config.default (0b000#3 ++ d ++ n ++ b) = .ok (.tlj d n b) ∧
    decode Config.default (0b001#3 ++ d ++ n ++ b) = .ok (.tmj d n b)) ∧
  (∀ (l : BitVec 3) (loc : Byte),
    decode Config.default (0b01000#5 ++ l ++ loc) = .ok (.bru (addrOfSection 0#3 l loc))) ∧
  ∀ (s : State) (i : Instr),
    ((∃ d n b, i = .tlj d n b) ∨ (∃ d n b, i = .tmj d n b) ∨ ∃ a, i = .bru a) →
    (∀ f, fetch s = .error f → exec i s = .fault f) ∧
    (∀ c, fetch s = .ok c →
      exec i s = .fault (.unimplementedInstruction c.iaw c.word (disassemble s.cfg c.word)))

/-- TLX and TMX (R79, R81): each is exactly one word, and always faults UnimplementedInstruction; the text of that word
under the default table is the mnemonic. -/
def Obligations.TlxTmxAlwaysFault : Prop :=
  (∀ w : Word, classify defaultDefs w = .tlx ↔ w = 0x0000#16) ∧
  (∀ w : Word, classify defaultDefs w = .tmx ↔ w = 0x2000#16) ∧
  (∀ cfg : Config, cfg.defs = defaultDefs →
    disassemble cfg 0x0000#16 = ['T', 'L', 'X'] ∧ disassemble cfg 0x2000#16 = ['T', 'M', 'X']) ∧
  ∀ (s : State) (i : Instr), (i = .tlx ∨ i = .tmx) →
    (∀ f, fetch s = .error f → exec i s = .fault f) ∧
    (∀ c, fetch s = .ok c →
      exec i s = .fault (.unimplementedInstruction c.iaw c.word (disassemble s.cfg c.word)))

/-- Unknown (R83): its words under the default table, and the fault UnknownInstruction, always, with the word in octal. -/
def Obligations.UnknownAlwaysFaults : Prop :=
  (∀ w : Word, (0x5000 ≤ w.toNat ∧ w.toNat ≤ 0x7FFF) ∨ 0xA000 ≤ w.toNat →
    decode Config.default w = .ok (.unknown w)) ∧
  ∀ (s : State) (w : Word),
    (∀ f, fetch s = .error f → exec (.unknown w) s = .fault f) ∧
    (∀ c, fetch s = .ok c →
      exec (.unknown w) s = .fault (.unknownInstruction c.iaw c.word
        (fixedDigits 8 3 (c.word.toNat / 256) ++ '-' :: fixedDigits 8 3 (c.word.toNat % 256))))

/-- A store into either byte of the next instruction is seen by the next fetch: into its first byte as the word's left
byte, into its second as the right byte (R44, R103). -/
def Obligations.StoreSeenByNextFetch : Prop :=
  ∀ (s t : State) (c d : Fetched) (r : BitVec 3) (m : BitVec 2) (p : BitVec 6) (x v : Byte),
    s.cfg.wordOrder = .leftFirst → fetch s = .ok c → exec (.sta r m p) s = .next t →
    s.cell r = some x → s.acc = some v → fetch t = .ok d →
    d.iaw = c.iaw.nextInstruction ∧
    ((indirectAddr p x).toNat = c.iaw.nextInstruction.toNat → d.word.toNat / 256 = v.toNat) ∧
    ((indirectAddr p x).toNat = c.iaw.nextInstruction.toNat + 1 → d.word.toNat % 256 = v.toNat)

/-! ### Reset, launch and the end of a run -/

/-- `reset()` (R96): what it sets, and that it writes nothing else. -/
def Obligations.ResetWritesOnlyItsParts : Prop :=
  ∀ s : State, s.cfg.iawBase.toNat + 63 ≤ 16383 →
    ∃ t, resetOp s = .ok t ∧ t.sp = 0#5 ∧ t.cmp = .equal ∧ t.curTape = none ∧ t.cur1 = 0 ∧ t.cur2 = 0 ∧
      t.fault = none ∧ activeIaw t = .ok 0x0800#14 ∧
      (s.cfg.addrWordOrder = .pageFirst → Memory.read t.mem s.cfg.iawBase.toNat = some 0x08#8 ∧
        Memory.read t.mem (s.cfg.iawBase.toNat + 1) = some 0x00#8) ∧
      SameIndex s t ∧ t.acc = s.acc ∧ t.cfg = s.cfg ∧
      SameMemoryOutside (fun a => a = s.cfg.iawBase.toNat ∨ a = s.cfg.iawBase.toNat + 1) s t

/-- The reset state is what `reset()` makes of the powered-on machine. That every register holds 0 there is the model's
choice (log entry 1), and so are the empty tapes and the absent stop address (log entry 4). -/
def Obligations.ResetStateIsResetOfPowerOn : Prop :=
  resetOp State.powerOn = .ok State.reset ∧ activeIaw State.reset = .ok entryPoint ∧
  State.reset.cmp = .equal ∧ State.reset.sp = 0#5 ∧ State.reset.curTape = none ∧ State.reset.cur1 = 0 ∧
  State.reset.cur2 = 0 ∧ State.reset.fault = none ∧ State.reset.cfg = Config.default ∧
  (∀ r, State.reset.cell r = some 0#8) ∧ State.reset.acc = some 0#8 ∧
  (∀ a, 2 ≤ a → Memory.read State.reset.mem a = none)

/-- `load` (R97): every byte at its place, nothing else changed; an overrun is refused. -/
def Obligations.LoadPlacesBytes : Prop :=
  ∀ (s : State) (start : Nat) (bytes : List Byte),
    (16384 < start + bytes.length → load s start bytes = none) ∧
    (start + bytes.length ≤ 16384 →
      ∃ t, load s start bytes = some t ∧ t = { s with mem := t.mem } ∧
        (∀ k, (h : k < bytes.length) → Memory.read t.mem (start + k) = some bytes[k]) ∧
        (∀ a, a < start ∨ start + bytes.length ≤ a → Memory.read t.mem a = Memory.read s.mem a) ∧
        (Memory.wf s.mem = true → Memory.wf t.mem = true))

/-- A launch is its loads and then reset (R98, R96): it stands at P10-000 with `CMP` Equal, no tape bound, both cursors 0
and no fault; every byte outside slot 0 reads as the loads left it, those of the last load as loaded. -/
def Obligations.LaunchEndsWithReset : Prop :=
  ∀ (s t : State) (loads : List (Nat × List Byte)), s.cfg.iawBase.toNat + 63 ≤ 16383 → launch s loads = some t →
    activeIaw t = .ok 0x0800#14 ∧ t.cmp = .equal ∧ t.sp = 0#5 ∧ t.curTape = none ∧ t.cur1 = 0 ∧ t.cur2 = 0 ∧
    t.fault = none ∧ SameIndex s t ∧ t.acc = s.acc ∧ t.cfg = s.cfg ∧
    (∃ u, loadAll s loads = some u ∧
      SameMemoryOutside (fun a => a = s.cfg.iawBase.toNat ∨ a = s.cfg.iawBase.toNat + 1) u t) ∧
    (∀ earlier start bytes, loads = earlier ++ [(start, bytes)] → ∀ k, (h : k < bytes.length) →
      start + k ≠ s.cfg.iawBase.toNat → start + k ≠ s.cfg.iawBase.toNat + 1 →
      Memory.read t.mem (start + k) = some bytes[k])

/-- The end of a run (R101), the checks in the model's order (log entry 14): a recorded fault ends it abnormally; STOP is
checked before each step and ends it with the state at that point; otherwise the host steps; a launch with no STOP never
ends normally. -/
def Obligations.RunEndsAtStopOrFault : Prop :=
  ∀ (s : State) (k : Nat),
    (s.fault ≠ none → runToStop k s = .faulted s) ∧
    (∀ a, s.fault = none → s.cfg.stop = some a → activeIaw s = .ok a → runToStop k s = .stopped s) ∧
    (s.fault = none → (∀ a, s.cfg.stop = some a → activeIaw s ≠ .ok a) →
      runToStop (k + 1) s = runToStop k (hostStep s)) ∧
    (s.cfg.stop = none → ∀ t, runToStop k s ≠ .stopped t)

/-- A BRL to itself with `CMP` Low runs forever: every step answers the very same state (R76, R67, R101). -/
def Obligations.BranchToItselfNeverEnds : Prop :=
  ∀ (s : State) (c : Fetched) (a : Addr) (k : Nat), Memory.wf s.mem = true → s.fault = none → fetch s = .ok c →
    decode s.cfg c.word = .ok (.brl a) → s.cmp = .low → branchTarget c.iaw a = c.iaw →
    Host.Core.run Sys2Proof.core k s = .next s

/-- The dump shows the active IAW, its slot marked as the active one, the register cells as they are (none where
unwritten) and the compare flag's letter (R94); the octal and address texts are R10's and decision D24's. -/
def Obligations.DumpShowsActiveSlotAndRegisters : Prop :=
  ∀ (s : State) (a : Addr), s.cfg.iawBase.toNat + 63 ≤ 16383 → activeIaw s = .ok a →
    (dump s).iaw = some (renderAddress a) ∧
    (∀ k : Fin 8, s.sp.toNat = k.val → (dump s).slots[k.val]? = some ⟨k.val, true, some (renderAddress a)⟩) ∧
    (∀ k : Fin 8, s.sp.toNat ≠ k.val → ∃ d, (dump s).slots[k.val]? = some d ∧ d.number = k.val ∧ d.active = false) ∧
    (∀ r : BitVec 3, ∃ label, (dump s).index[r.toNat]? = some (label, (s.cell r).map octalByte)) ∧
    (dump s).acc = s.acc.map octalByte ∧
    (dump s).cmp = (match s.cmp with | .low => 'L' | .equal => 'E' | .high => 'H')
end

