-- ==== Sys2Proof/Laws/Address.lean ====
section
/-! SUPPORT. The fields of a constructed address are those it was built from, and an address is built from its fields. -/

namespace Sys2Proof

@[simp] theorem addrOfPage_pageOf (p : BitVec 6) (l : Byte) : (addrOfPage p l).pageOf = p := by
  apply BitVec.eq_of_getLsbD_eq
  intro i hi
  have h : ¬ 8 + i < 8 := by omega
  simp only [addrOfPage, Addr.pageOf, BitVec.getLsbD_extractLsb', BitVec.getLsbD_append, hi, decide_true,
    Bool.true_and, h, if_false, Nat.add_sub_cancel_left]

@[simp] theorem addrOfPage_locationOf (p : BitVec 6) (l : Byte) : (addrOfPage p l).locationOf = l := by
  apply BitVec.eq_of_getLsbD_eq
  intro i hi
  simp only [addrOfPage, Addr.locationOf, BitVec.getLsbD_extractLsb', BitVec.getLsbD_append, Nat.zero_add, hi,
    decide_true, Bool.true_and, if_true]

@[simp] theorem addrOfPage_eta (a : Addr) : addrOfPage a.pageOf a.locationOf = a := by
  apply BitVec.eq_of_getLsbD_eq
  intro i hi
  simp only [addrOfPage, Addr.pageOf, Addr.locationOf, BitVec.getLsbD_append, BitVec.getLsbD_extractLsb']
  by_cases h : i < 8
  · simp only [h, decide_true, Bool.true_and, if_true, Nat.zero_add]
  · have h1 : i - 8 < 6 := by omega
    have h2 : 8 + (i - 8) = i := by omega
    simp only [h, h1, h2, decide_true, Bool.true_and, if_false]

/-- The high and low three bits of a page made of a section and a level. -/
theorem append3_parts (s l : BitVec 3) :
    (s ++ l : BitVec 6).extractLsb' 3 3 = s ∧ (s ++ l : BitVec 6).extractLsb' 0 3 = l := by
  revert s l; decide

theorem Addr.sectionOf_eq (a : Addr) : a.sectionOf = a.pageOf.extractLsb' 3 3 := by
  apply BitVec.eq_of_getLsbD_eq
  intro i hi
  have h1 : 3 + i < 6 := by omega
  have h2 : 8 + (3 + i) = 11 + i := by omega
  simp only [Addr.sectionOf, Addr.pageOf, BitVec.getLsbD_extractLsb', hi, h1, h2, decide_true, Bool.true_and]

theorem Addr.levelOf_eq (a : Addr) : a.levelOf = a.pageOf.extractLsb' 0 3 := by
  apply BitVec.eq_of_getLsbD_eq
  intro i hi
  have h1 : 0 + i < 6 := by omega
  have h2 : 8 + (0 + i) = 8 + i := by omega
  simp only [Addr.levelOf, Addr.pageOf, BitVec.getLsbD_extractLsb', hi, h1, h2, decide_true, Bool.true_and]

@[simp] theorem addrOfSection_sectionOf (s l : BitVec 3) (loc : Byte) : (addrOfSection s l loc).sectionOf = s := by
  rw [Addr.sectionOf_eq, addrOfSection, addrOfPage_pageOf]; exact (append3_parts s l).1

@[simp] theorem addrOfSection_levelOf (s l : BitVec 3) (loc : Byte) : (addrOfSection s l loc).levelOf = l := by
  rw [Addr.levelOf_eq, addrOfSection, addrOfPage_pageOf]; exact (append3_parts s l).2

@[simp] theorem addrOfSection_locationOf (s l : BitVec 3) (loc : Byte) : (addrOfSection s l loc).locationOf = loc :=
  addrOfPage_locationOf _ _

@[simp] theorem addrOfSection_eta (a : Addr) : addrOfSection a.sectionOf a.levelOf a.locationOf = a := by
  have h : ∀ p : BitVec 6, (p.extractLsb' 3 3 ++ p.extractLsb' 0 3 : BitVec 6) = p := by decide
  rw [addrOfSection, Addr.sectionOf_eq, Addr.levelOf_eq, h, addrOfPage_eta]

/-- Replacing the section leaves level and location (R29). -/
theorem Addr.withSection_fields (a : Addr) (s : BitVec 3) :
    (a.withSection s).sectionOf = s ∧ (a.withSection s).levelOf = a.levelOf ∧
      (a.withSection s).locationOf = a.locationOf := by
  simp [Addr.withSection]

end Sys2Proof
end

