-- ==== Sys2Proof/Laws/Classify.lean ====
section
/-! SUPPORT. The classifier of the default table, computed: by the word's five highest bits, but for the two words whose
row fixes all sixteen. -/

namespace Sys2Proof

/-- The type of the words with the given five highest bits, the two fully fixed words aside. -/
def typeOfTop (top : BitVec 5) : InstrType :=
  if top.toNat < 4 then .tlj
  else if top.toNat < 8 then .tmj
  else if top = 8#5 then .bru
  else if top = 9#5 then .brl
  else if top = 16#5 then .ldx
  else if top = 17#5 then .cpx
  else if top = 18#5 then .sta
  else if top = 19#5 then .ioc
  else .unknown

theorem popcount_masks : popcount 0x0000#16 = 0 ∧ popcount 0xE000#16 = 3 ∧ popcount 0xF800#16 = 5 ∧
    popcount 0xFFFF#16 = 16 := by decide

/-- A pass in which no row of the default table has that many mask bits changes nothing. -/
theorem classifyPass_idle (w : Word) (t : InstrType) (bits : Nat) (h0 : bits ≠ 0) (h3 : bits ≠ 3) (h5 : bits ≠ 5)
    (h16 : bits ≠ 16) : classifyPass defaultDefs w bits t = t := by
  obtain ⟨p0, p3, p5, p16⟩ := popcount_masks
  simp [classifyPass, defaultDefs, p0, p3, p5, p16, h0.symm, h3.symm, h5.symm, h16.symm]

/-- The default table's type of a word, from the word under each of its masks. -/
def typeOfMasked (byThree byFive : Word) (whole : Word) : InstrType :=
  if whole = 0x2000#16 then .tmx
  else if whole = 0x0000#16 then .tlx
  else if byFive = 0x9800#16 then .ioc
  else if byFive = 0x9000#16 then .sta
  else if byFive = 0x8800#16 then .cpx
  else if byFive = 0x8000#16 then .ldx
  else if byFive = 0x4800#16 then .brl
  else if byFive = 0x4000#16 then .bru
  else if byThree = 0x2000#16 then .tmj
  else if byThree = 0x0000#16 then .tlj
  else .unknown

theorem classify_passes (w : Word) :
    classify defaultDefs w =
      classifyPass defaultDefs w 16 (classifyPass defaultDefs w 5 (classifyPass defaultDefs w 3
        (classifyPass defaultDefs w 0 .unknown))) := by
  have hr : List.range 17 = [0, 1, 2, 3, 4, 5, 6, 7, 8, 9, 10, 11, 12, 13, 14, 15, 16] := by decide
  simp only [classify, hr, List.foldl_cons, List.foldl_nil]
  simp only [classifyPass_idle w _ 1, classifyPass_idle w _ 2, classifyPass_idle w _ 4, classifyPass_idle w _ 6,
    classifyPass_idle w _ 7, classifyPass_idle w _ 8, classifyPass_idle w _ 9, classifyPass_idle w _ 10,
    classifyPass_idle w _ 11, classifyPass_idle w _ 12, classifyPass_idle w _ 13, classifyPass_idle w _ 14,
    classifyPass_idle w _ 15, ne_eq, OfNat.ofNat_ne_zero, not_false_eq_true, Nat.reduceEqDiff,
    OfNat.one_ne_ofNat, one_ne_zero]

theorem classify_masked (w : Word) :
    classify defaultDefs w = typeOfMasked (w &&& 0xE000#16) (w &&& 0xF800#16) w := by
  obtain ⟨p0, p3, p5, p16⟩ := popcount_masks
  have hw : w &&& 0xFFFF#16 = w := by
    have : (0xFFFF#16 : Word) = BitVec.allOnes 16 := by decide
    rw [this, BitVec.and_allOnes]
  rw [classify_passes]
  simp [classifyPass, defaultDefs, p0, p3, p5, p16, DefRow.matchesWord, typeOfMasked, hw]

theorem append_and_masks (top : BitVec 5) (low : BitVec 11) :
    (top ++ low : Word) &&& 0xF800#16 = top ++ 0#11 ∧
      (top ++ low : Word) &&& 0xE000#16 = (top &&& 0b11100#5) ++ 0#11 := by
  have h1 : (0xF800#16 : Word) = 0b11111#5 ++ 0#11 := by decide
  have h2 : (0xE000#16 : Word) = 0b11100#5 ++ 0#11 := by decide
  have h3 : ∀ t : BitVec 5, t &&& 0b11111#5 = t := by decide
  rw [h1, h2, BitVec.and_append, BitVec.and_append, h3, BitVec.and_zero]
  exact ⟨rfl, rfl⟩

/-- A word is its five highest bits followed by its eleven lowest. -/
theorem word_split (w : Word) : (w.extractLsb' 11 5 ++ w.extractLsb' 0 11 : Word) = w := by
  apply BitVec.eq_of_getLsbD_eq
  intro i hi
  simp only [BitVec.getLsbD_append, BitVec.getLsbD_extractLsb', Nat.zero_add]
  by_cases h : i < 11
  · simp only [h, decide_true, Bool.true_and, if_true]
  · have h1 : i - 11 < 5 := by omega
    have h2 : 11 + (i - 11) = i := by omega
    simp only [h, h1, h2, decide_true, Bool.true_and, if_false]

/-- The type of a word by its five highest bits, the two fully fixed words aside (R61). -/
theorem classify_top (w : Word) (h0 : w ≠ 0x0000#16) (h2 : w ≠ 0x2000#16) :
    classify defaultDefs w = typeOfTop (w.extractLsb' 11 5) := by
  have key : ∀ t : BitVec 5,
      typeOfMasked ((t &&& 0b11100#5) ++ 0#11) (t ++ 0#11) 0x0001#16 = typeOfTop t := by decide
  have hm := append_and_masks (w.extractLsb' 11 5) (w.extractLsb' 0 11)
  rw [word_split] at hm
  rw [classify_masked, hm.1, hm.2, ← key]
  simp [typeOfMasked, h0, h2]

theorem classify_tlx : classify defaultDefs 0x0000#16 = .tlx := by decide

theorem classify_tmx : classify defaultDefs 0x2000#16 = .tmx := by decide

/-- The five highest bits of a word made of a 5-bit opcode, a 3-bit and an 8-bit field. -/
theorem top_append (op : BitVec 5) (r : BitVec 3) (n : BitVec 8) :
    (op ++ r ++ n : Word).extractLsb' 11 5 = op := by
  apply BitVec.eq_of_getLsbD_eq
  intro i hi
  have h1 : ¬ 11 + i < 8 := by omega
  have h2 : ¬ 11 + i - 8 < 3 := by omega
  have h3 : 11 + i - 8 - 3 = i := by omega
  simp only [BitVec.getLsbD_extractLsb', BitVec.getLsbD_append, hi, h1, h2, h3, decide_true, Bool.true_and, if_false]

/-- A word of a 5-bit opcode has the type of that opcode, where the opcode is not one of the jump rows'. -/
theorem classify_opcode (op : BitVec 5) (r : BitVec 3) (n : BitVec 8) (h : 8 ≤ op.toNat) :
    classify defaultDefs (op ++ r ++ n : Word) = typeOfTop op := by
  have ht := top_append op r n
  rw [classify_top _ ?_ ?_, ht]
  · intro e
    rw [e] at ht
    subst ht
    revert h; decide
  · intro e
    rw [e] at ht
    subst ht
    revert h; decide

/-- The three highest bits of a word of a jump format. -/
theorem top_jump (op : BitVec 3) (d : BitVec 1) (n : BitVec 4) (l : BitVec 8) :
    ((op ++ d ++ n ++ l : Word).extractLsb' 11 5).extractLsb' 2 3 = op := by
  apply BitVec.eq_of_getLsbD_eq
  intro i hi
  have h0 : 2 + i < 5 := by omega
  have h1 : ¬ 11 + (2 + i) < 8 := by omega
  have h2 : ¬ 11 + (2 + i) - 8 < 4 := by omega
  have h3 : ¬ 11 + (2 + i) - 8 - 4 < 1 := by omega
  have h4 : 11 + (2 + i) - 8 - 4 - 1 = i := by omega
  simp only [BitVec.getLsbD_extractLsb', BitVec.getLsbD_append, hi, h0, h1, h2, h3, h4, decide_true, Bool.true_and,
    if_false]

theorem typeOfTop_tlj : ∀ t : BitVec 5, t.extractLsb' 2 3 = 0b000#3 → typeOfTop t = .tlj := by decide

theorem typeOfTop_tmj : ∀ t : BitVec 5, t.extractLsb' 2 3 = 0b001#3 → typeOfTop t = .tmj := by decide

/-- The fields of a word of a jump format. -/
theorem jump_fields (op : BitVec 3) (d : BitVec 1) (n : BitVec 4) (l : BitVec 8) :
    (op ++ d ++ n ++ l : Word).extractLsb' 13 3 = op ∧ (op ++ d ++ n ++ l : Word).extractLsb' 12 1 = d ∧
      (op ++ d ++ n ++ l : Word).extractLsb' 8 4 = n ∧ (op ++ d ++ n ++ l : Word).extractLsb' 0 8 = l := by
  refine ⟨?_, ?_, ?_, ?_⟩ <;> apply BitVec.eq_of_getLsbD_eq <;> intro i hi
  · have h1 : ¬ 13 + i < 8 := by omega
    have h2 : ¬ 13 + i - 8 < 4 := by omega
    have h3 : ¬ 13 + i - 8 - 4 < 1 := by omega
    have h4 : 13 + i - 8 - 4 - 1 = i := by omega
    simp only [BitVec.getLsbD_extractLsb', BitVec.getLsbD_append, hi, h1, h2, h3, h4, decide_true, Bool.true_and,
      if_false]
  · have h1 : ¬ 12 + i < 8 := by omega
    have h2 : ¬ 12 + i - 8 < 4 := by omega
    have h4 : 12 + i - 8 - 4 = i := by omega
    simp only [BitVec.getLsbD_extractLsb', BitVec.getLsbD_append, hi, h1, h2, h4, decide_true, Bool.true_and,
      if_false, if_true]
  · have h1 : ¬ 8 + i < 8 := by omega
    have h4 : 8 + i - 8 = i := by omega
    simp only [BitVec.getLsbD_extractLsb', BitVec.getLsbD_append, hi, h1, h4, decide_true, Bool.true_and,
      if_false, if_true]
  · simp only [BitVec.getLsbD_extractLsb', BitVec.getLsbD_append, Nat.zero_add, hi, decide_true, Bool.true_and,
      if_true]

/-- The fields of a word of a 5-bit opcode, a 3-bit and an 8-bit field. -/
theorem opcode_fields (op : BitVec 5) (r : BitVec 3) (n : BitVec 8) :
    (op ++ r ++ n : Word).extractLsb' 8 3 = r ∧ (op ++ r ++ n : Word).extractLsb' 0 8 = n := by
  refine ⟨?_, ?_⟩ <;> apply BitVec.eq_of_getLsbD_eq <;> intro i hi
  · have h1 : ¬ 8 + i < 8 := by omega
    have h4 : 8 + i - 8 = i := by omega
    simp only [BitVec.getLsbD_extractLsb', BitVec.getLsbD_append, hi, h1, h4, decide_true, Bool.true_and, if_false,
      if_true]
  · simp only [BitVec.getLsbD_extractLsb', BitVec.getLsbD_append, Nat.zero_add, hi, decide_true, Bool.true_and,
      if_true]

/-- STA's mode and page are the two parts of its low byte. -/
theorem encode_sta (r : BitVec 3) (m : BitVec 2) (p : BitVec 6) :
    encode (.sta r m p) = 0b10010#5 ++ r ++ (m ++ p : BitVec 8) := by
  simp only [encode]
  rw [BitVec.append_assoc]
  rfl

/-- The instruction a word of the given type holds under the default layout. -/
def instrOfType (w : Word) : InstrType → Except DecodeError Instr
  | .unknown => .ok (.unknown w)
  | .tlj => .ok (.tlj (w.extractLsb' 12 1) (w.extractLsb' 8 4) (w.extractLsb' 0 8))
  | .tlx => .ok .tlx
  | .tmj => .ok (.tmj (w.extractLsb' 12 1) (w.extractLsb' 8 4) (w.extractLsb' 0 8))
  | .tmx => .ok .tmx
  | .bru => .ok (.bru (addrOfSection (w.extractLsb' 11 3) (w.extractLsb' 8 3) (w.extractLsb' 0 8)))
  | .brl => .ok (.brl (addrOfSection (w.extractLsb' 11 3) (w.extractLsb' 8 3) (w.extractLsb' 0 8)))
  | .ldx => .ok (.ldx (w.extractLsb' 8 3) (w.extractLsb' 0 8))
  | .cpx => .ok (.cpx (w.extractLsb' 8 3) (w.extractLsb' 0 8))
  | .sta => .ok (.sta (w.extractLsb' 8 3) (w.extractLsb' 6 2) (w.extractLsb' 0 6))
  | .ioc => .ok (.ioc (w.extractLsb' 8 3) (w.extractLsb' 0 8))
  | .other n => .error (.unhandledType n)

/-- Decoding under the default parameters, by the word's type. -/
theorem decode_default (w : Word) : decode Config.default w = instrOfType w (classify defaultDefs w) := by
  unfold decode
  rw [show Config.default.defs = defaultDefs from rfl]
  cases classify defaultDefs w <;> rfl

end Sys2Proof
end

