-- ==== Sys2Proof/Laws/State.lean ====
section
/-! SUPPORT. What each named update leaves and changes, field by field. -/

namespace Sys2Proof.Machine

/-! ### `setX` -/

@[simp] theorem State.setX_acc (s : State) (r : BitVec 3) (v : Byte) : (s.setX r v).acc = s.acc := rfl
@[simp] theorem State.setX_cmp (s : State) (r : BitVec 3) (v : Byte) : (s.setX r v).cmp = s.cmp := rfl
@[simp] theorem State.setX_sp (s : State) (r : BitVec 3) (v : Byte) : (s.setX r v).sp = s.sp := rfl
@[simp] theorem State.setX_mem (s : State) (r : BitVec 3) (v : Byte) : (s.setX r v).mem = s.mem := rfl
@[simp] theorem State.setX_curTape (s : State) (r : BitVec 3) (v : Byte) : (s.setX r v).curTape = s.curTape := rfl
@[simp] theorem State.setX_cur1 (s : State) (r : BitVec 3) (v : Byte) : (s.setX r v).cur1 = s.cur1 := rfl
@[simp] theorem State.setX_cur2 (s : State) (r : BitVec 3) (v : Byte) : (s.setX r v).cur2 = s.cur2 := rfl
@[simp] theorem State.setX_fault (s : State) (r : BitVec 3) (v : Byte) : (s.setX r v).fault = s.fault := rfl
@[simp] theorem State.setX_cfg (s : State) (r : BitVec 3) (v : Byte) : (s.setX r v).cfg = s.cfg := rfl

theorem State.setX_cell (s : State) (r q : BitVec 3) (v : Byte) :
    (s.setX r v).cell q = if q = r then some v else s.cell q := by
  simp only [State.setX, State.cell, Vector.getElem_set, BitVec.toNat_inj, eq_comm]

@[simp] theorem State.setX_cell_same (s : State) (r : BitVec 3) (v : Byte) : (s.setX r v).cell r = some v := by
  rw [State.setX_cell, if_pos rfl]

theorem State.setX_cell_other (s : State) {r q : BitVec 3} (v : Byte) (h : q ≠ r) :
    (s.setX r v).cell q = s.cell q := by
  rw [State.setX_cell, if_neg h]

/-! ### `setAcc` and `setCmp` -/

@[simp] theorem State.setAcc_acc (s : State) (v : Byte) : (s.setAcc v).acc = some v := rfl
@[simp] theorem State.setAcc_cmp (s : State) (v : Byte) : (s.setAcc v).cmp = s.cmp := rfl
@[simp] theorem State.setAcc_sp (s : State) (v : Byte) : (s.setAcc v).sp = s.sp := rfl
@[simp] theorem State.setAcc_mem (s : State) (v : Byte) : (s.setAcc v).mem = s.mem := rfl
@[simp] theorem State.setAcc_curTape (s : State) (v : Byte) : (s.setAcc v).curTape = s.curTape := rfl
@[simp] theorem State.setAcc_cur1 (s : State) (v : Byte) : (s.setAcc v).cur1 = s.cur1 := rfl
@[simp] theorem State.setAcc_cur2 (s : State) (v : Byte) : (s.setAcc v).cur2 = s.cur2 := rfl
@[simp] theorem State.setAcc_fault (s : State) (v : Byte) : (s.setAcc v).fault = s.fault := rfl
@[simp] theorem State.setAcc_cfg (s : State) (v : Byte) : (s.setAcc v).cfg = s.cfg := rfl
@[simp] theorem State.setAcc_cell (s : State) (v : Byte) (q : BitVec 3) : (s.setAcc v).cell q = s.cell q := rfl

@[simp] theorem State.setCmp_acc (s : State) (c : Cmp) : (s.setCmp c).acc = s.acc := rfl
@[simp] theorem State.setCmp_cmp (s : State) (c : Cmp) : (s.setCmp c).cmp = c := rfl
@[simp] theorem State.setCmp_sp (s : State) (c : Cmp) : (s.setCmp c).sp = s.sp := rfl
@[simp] theorem State.setCmp_mem (s : State) (c : Cmp) : (s.setCmp c).mem = s.mem := rfl
@[simp] theorem State.setCmp_curTape (s : State) (c : Cmp) : (s.setCmp c).curTape = s.curTape := rfl
@[simp] theorem State.setCmp_cur1 (s : State) (c : Cmp) : (s.setCmp c).cur1 = s.cur1 := rfl
@[simp] theorem State.setCmp_cur2 (s : State) (c : Cmp) : (s.setCmp c).cur2 = s.cur2 := rfl
@[simp] theorem State.setCmp_fault (s : State) (c : Cmp) : (s.setCmp c).fault = s.fault := rfl
@[simp] theorem State.setCmp_cfg (s : State) (c : Cmp) : (s.setCmp c).cfg = s.cfg := rfl
@[simp] theorem State.setCmp_cell (s : State) (c : Cmp) (q : BitVec 3) : (s.setCmp c).cell q = s.cell q := rfl

/-! ### `advanceTape` -/

@[simp] theorem State.advanceTape_acc (s : State) (t : TapeId) : (s.advanceTape t).acc = s.acc := by cases t <;> rfl
@[simp] theorem State.advanceTape_cmp (s : State) (t : TapeId) : (s.advanceTape t).cmp = s.cmp := by cases t <;> rfl
@[simp] theorem State.advanceTape_sp (s : State) (t : TapeId) : (s.advanceTape t).sp = s.sp := by cases t <;> rfl
@[simp] theorem State.advanceTape_mem (s : State) (t : TapeId) : (s.advanceTape t).mem = s.mem := by cases t <;> rfl
@[simp] theorem State.advanceTape_curTape (s : State) (t : TapeId) : (s.advanceTape t).curTape = s.curTape := by
  cases t <;> rfl
@[simp] theorem State.advanceTape_fault (s : State) (t : TapeId) : (s.advanceTape t).fault = s.fault := by
  cases t <;> rfl
@[simp] theorem State.advanceTape_cfg (s : State) (t : TapeId) : (s.advanceTape t).cfg = s.cfg := by cases t <;> rfl
@[simp] theorem State.advanceTape_cell (s : State) (t : TapeId) (q : BitVec 3) :
    (s.advanceTape t).cell q = s.cell q := by cases t <;> rfl

theorem State.advanceTape_cursor (s : State) (t u : TapeId) :
    (s.advanceTape t).cursor u = if u = t then s.cursor u + 1 else s.cursor u := by
  cases t <;> cases u <;> rfl

/-! ### Memory, read through the state -/

@[simp] theorem State.cell_mem (s : State) (m : Memory) (q : BitVec 3) : State.cell { s with mem := m } q = s.cell q :=
  rfl

@[simp] theorem slotAddr_mem (s : State) (m : Memory) : slotAddr { s with mem := m } = slotAddr s := rfl

theorem slotAddr_congr {s t : State} (hc : t.cfg = s.cfg) (hs : t.sp = s.sp) : slotAddr t = slotAddr s := by
  simp only [slotAddr, hc, hs]

/-- Reading a byte depends on memory alone. -/
theorem memRead_congr {s t : State} (h : t.mem = s.mem) (iaw : Option Addr) (a : Nat) :
    memRead t iaw a = memRead s iaw a := by
  simp only [memRead, h]

/-- Fetching depends on memory, the parameters and the stack pointer alone. -/
theorem fetch_congr {s t : State} (hm : t.mem = s.mem) (hc : t.cfg = s.cfg) (hs : t.sp = s.sp) :
    fetch t = fetch s := by
  obtain ⟨x, acc, cmp, sp, mem, curTape, cur1, cur2, fault, cfg⟩ := s
  obtain ⟨x', acc', cmp', sp', mem', curTape', cur1', cur2', fault', cfg'⟩ := t
  simp only at hm hc hs
  subst hm hc hs
  rfl

end Sys2Proof.Machine
end

