-- ==== Sys2Proof/Laws/Memory.lean ====
section
/-! SUPPORT. Memory: a read after a write, the canonical form, and the two-byte accesses built on them. -/

namespace Sys2Proof.Machine

/-! ### One cell -/

theorem Memory.read_write_same (m : Memory) (a : Nat) (v : Byte) : Memory.read (Memory.write m a v) a = some v := by
  induction m with
  | nil => simp [Memory.write, Memory.read]
  | cons c rest ih =>
    simp only [Memory.write]
    split
    · simp [Memory.read]
    · split
      · simp [Memory.read]
      · rename_i h; simp [Memory.read, h, ih]

theorem Memory.read_write_other (m : Memory) {a b : Nat} (v : Byte) (h : b ≠ a) :
    Memory.read (Memory.write m a v) b = Memory.read m b := by
  induction m with
  | nil => simp [Memory.write, Memory.read, h.symm]
  | cons c rest ih =>
    simp only [Memory.write]
    split
    · simp [Memory.read, h.symm]
    · split
      · rename_i hc; simp [Memory.read, hc, h.symm]
      · simp only [Memory.read, ih]

theorem Memory.read_write (m : Memory) (a b : Nat) (v : Byte) :
    Memory.read (Memory.write m a v) b = if b = a then some v else Memory.read m b := by
  split
  · rename_i h; rw [h, Memory.read_write_same]
  · rename_i h; exact Memory.read_write_other m v h

/-- The canonical form, said of a memory's head and tail. -/
theorem Memory.wf_cons (c : Host.Cell) (m : Memory) :
    Memory.wf (c :: m) = true ↔ c.1 < memSize ∧ Memory.wf m = true ∧ ∀ d ∈ m, c.1 < d.1 := by
  induction m generalizing c with
  | nil => simp [Memory.wf]
  | cons d rest ih =>
    simp only [Memory.wf, Bool.and_eq_true, decide_eq_true_eq, List.mem_cons, forall_eq_or_imp]
    constructor
    · rintro ⟨h, hw⟩
      obtain ⟨hd, -, hr⟩ := (ih d).mp hw
      exact ⟨by omega, hw, h, fun e he => by have := hr e he; omega⟩
    · rintro ⟨-, hw, h, -⟩
      exact ⟨h, hw⟩

theorem Memory.mem_write {m : Memory} {a : Nat} {v : Byte} {d : Host.Cell} (h : d ∈ Memory.write m a v) :
    d = (a, v) ∨ d ∈ m := by
  induction m with
  | nil => simpa [Memory.write] using h
  | cons c rest ih =>
    simp only [Memory.write] at h
    split at h
    · simpa using h
    · split at h
      · rcases List.mem_cons.mp h with h | h
        · exact .inl h
        · exact .inr (List.mem_cons_of_mem c h)
      · rcases List.mem_cons.mp h with h | h
        · exact .inr (by simp [h])
        · exact (ih h).imp_right (List.mem_cons_of_mem c)

/-- Writing a cell inside memory keeps the canonical form. -/
theorem Memory.write_wf {m : Memory} {a : Nat} (v : Byte) (ha : a < memSize) (h : Memory.wf m = true) :
    Memory.wf (Memory.write m a v) = true := by
  induction m with
  | nil => simp [Memory.write, Memory.wf, ha]
  | cons c rest ih =>
    obtain ⟨hc, hr, hlt⟩ := (Memory.wf_cons c rest).mp h
    simp only [Memory.write]
    split
    · rename_i hac
      refine (Memory.wf_cons _ _).mpr ⟨ha, h, ?_⟩
      intro d hd
      rcases List.mem_cons.mp hd with rfl | hd
      · exact hac
      · have := hlt d hd; show a < d.1; omega
    · split
      · rename_i hca
        refine (Memory.wf_cons _ _).mpr ⟨ha, hr, ?_⟩
        intro d hd; have := hlt d hd; show a < d.1; omega
      · refine (Memory.wf_cons _ _).mpr ⟨hc, ih hr, ?_⟩
        intro d hd
        rcases Memory.mem_write hd with rfl | hd
        · show c.1 < a; omega
        · exact hlt d hd

/-- In canonical memory, writing what a cell already holds changes nothing. -/
theorem Memory.write_read_self {m : Memory} {a : Nat} {v : Byte} (hw : Memory.wf m = true)
    (h : Memory.read m a = some v) : Memory.write m a v = m := by
  induction m with
  | nil => simp [Memory.read] at h
  | cons c rest ih =>
    obtain ⟨-, hr, hlt⟩ := (Memory.wf_cons c rest).mp hw
    simp only [Memory.read] at h
    split at h
    · rename_i hc
      obtain ⟨k, b⟩ := c
      simp only [Option.some.injEq] at h hc
      subst h hc
      simp [Memory.write]
    · rename_i hc
      have hne : ¬ a < c.1 := by
        intro hac
        have : Memory.read rest a = none := by
          clear ih hr hw h
          induction rest with
          | nil => rfl
          | cons d rest ih' =>
            have hd := hlt d (by simp)
            simp only [Memory.read]
            rw [if_neg (by omega)]
            exact ih' fun e he => hlt e (by simp [he])
        simp [this] at h
      simp [Memory.write, hne, hc, ih hr h]

/-! ### The memory port -/

theorem memRead_ok {s : State} {iaw : Option Addr} {a : Nat} {b : Byte} :
    memRead s iaw a = .ok b ↔ a < memSize ∧ Memory.read s.mem a = some b := by
  unfold memRead
  split
  · rename_i h
    cases hr : Memory.read s.mem a <;> simp [h]
  · rename_i h; simp [h]

theorem memWrite_ok {s t : State} {iaw : Option Addr} {a : Nat} {v : Byte} :
    memWrite s iaw a v = .ok t ↔ a < memSize ∧ t = { s with mem := Memory.write s.mem a v } := by
  unfold memWrite
  split <;> rename_i h
  · simp [h, eq_comm]
  · simp [h]

theorem memWrite_of_lt (s : State) (iaw : Option Addr) {a : Nat} (v : Byte) (h : a < memSize) :
    memWrite s iaw a v = .ok { s with mem := Memory.write s.mem a v } := by
  unfold memWrite; rw [if_pos h]

/-! ### Address words -/

/-- `WriteAddrWord` inside memory: what it leaves. -/
theorem writeAddrWord_of_lt (s : State) (iaw : Option Addr) {slot : Nat} (a : Addr) (h : slot + 1 < memSize) :
    writeAddrWord s iaw slot a =
      .ok { s with
        mem := Memory.write (Memory.write s.mem slot (addrWordBytes s.cfg.addrWordOrder a).1) (slot + 1)
          (addrWordBytes s.cfg.addrWordOrder a).2 } := by
  have h0 : slot < memSize := by omega
  simp only [writeAddrWord, memWrite_of_lt _ _ _ h0, memWrite_of_lt _ _ _ h]

/-- `WriteAddrWord` succeeds only inside memory, and then as `writeAddrWord_of_lt` says. -/
theorem writeAddrWord_ok {s t : State} {iaw : Option Addr} {slot : Nat} {a : Addr}
    (h : writeAddrWord s iaw slot a = .ok t) :
    slot + 1 < memSize ∧ t = { s with
      mem := Memory.write (Memory.write s.mem slot (addrWordBytes s.cfg.addrWordOrder a).1) (slot + 1)
        (addrWordBytes s.cfg.addrWordOrder a).2 } := by
  have hlt : slot + 1 < memSize := by
    unfold writeAddrWord at h
    simp only at h
    split at h
    · cases h
    · exact (memWrite_ok.mp h).1
  rw [writeAddrWord_of_lt s iaw a hlt] at h
  exact ⟨hlt, (Except.ok.inj h).symm⟩

/-- The page and location of an address word's bytes are the address's own, and the spare bits are 0. -/
theorem addrWord_parts (order : AddrWordOrder) (a : Addr) :
    addrWordParts order (addrWordBytes order a).1 (addrWordBytes order a).2 = (a.pageOf.setWidth 8, a.locationOf) := by
  cases order <;> rfl

/-- A page byte with spare bits 0 is its page widened, and the other way round (R33, R34). -/
theorem pageByte_widen : ∀ p : Byte, p.extractLsb' 6 2 = 0#2 → (p.extractLsb' 0 6).setWidth 8 = p := by decide

theorem pageByte_spare : ∀ p : BitVec 6, (p.setWidth 8).extractLsb' 6 2 = 0#2 := by decide

theorem pageByte_page : ∀ p : BitVec 6, (p.setWidth 8).extractLsb' 0 6 = p := by decide

/-- A read of the slot gives the address, in any state whose slot bytes are the address's. -/
theorem readAddrWord_of_bytes {s : State} {slot : Nat} {a : Addr} (h : slot + 1 < memSize)
    (h0 : Memory.read s.mem slot = some (addrWordBytes s.cfg.addrWordOrder a).1)
    (h1 : Memory.read s.mem (slot + 1) = some (addrWordBytes s.cfg.addrWordOrder a).2) :
    readAddrWord s slot = .ok a := by
  have hs : slot < memSize := by omega
  unfold readAddrWord
  rw [memRead_ok.mpr ⟨hs, h0⟩]
  simp only
  rw [memRead_ok.mpr ⟨h, h1⟩]
  simp only [addrWord_parts, pageByte_spare, if_true, pageByte_page, addrOfPage_eta]

/-- A successful read of an address word: its bytes are inside memory and are the address's own. -/
theorem readAddrWord_ok {s : State} {slot : Nat} {a : Addr} (h : readAddrWord s slot = .ok a) :
    slot + 1 < memSize ∧ Memory.read s.mem slot = some (addrWordBytes s.cfg.addrWordOrder a).1 ∧
      Memory.read s.mem (slot + 1) = some (addrWordBytes s.cfg.addrWordOrder a).2 := by
  unfold readAddrWord at h
  split at h
  · cases h
  rename_i b0 hb0
  split at h
  · cases h
  rename_i b1 hb1
  obtain ⟨-, hr0⟩ := memRead_ok.mp hb0
  obtain ⟨hlt, hr1⟩ := memRead_ok.mp hb1
  simp only at h
  split at h
  · rename_i hspare
    have ha := (Except.ok.inj h).symm
    refine ⟨hlt, ?_, ?_⟩
    all_goals
      first | rw [hr0, ha] | rw [hr1, ha]
      cases ho : s.cfg.addrWordOrder <;> simp only [ho, addrWordParts] at hspare ⊢ <;>
        simp only [addrWordBytes, addrOfPage_pageOf, addrOfPage_locationOf, pageByte_widen _ hspare]
  · cases h

end Sys2Proof.Machine
end

