-- ==== Sys2Proof/Laws/PerInstr.lean ====
section
/-! SUPPORT. Instruction by instruction: the word of a well-formed instruction classifies as the instruction's own row
under the default table. -/

namespace Sys2Proof

/-- The type of an instruction's row. -/
def Instr.rowType : Instr → InstrType
  | .tlj _ _ _ => .tlj
  | .tlx => .tlx
  | .tmj _ _ _ => .tmj
  | .tmx => .tmx
  | .bru _ => .bru
  | .brl _ => .brl
  | .ldx _ _ => .ldx
  | .cpx _ _ => .cpx
  | .sta _ _ _ => .sta
  | .ioc _ _ => .ioc
  | .unknown _ => .unknown

end Sys2Proof

namespace Sys2Proof.Laws.EncodedRow

/-- The word of the instruction classifies as the instruction's own row. -/
def Statement (i : Instr) : Prop := i.wellFormed = true → classify defaultDefs (encode i) = i.rowType

theorem tlj (d : BitVec 1) (n : BitVec 4) (l : Byte) : Statement (.tlj d n l) := by
  intro h
  have hf := jump_fields 0b000#3 d n l
  have hz : (0b000#3 ++ d ++ n ++ l : Word) ≠ 0x0000#16 := by
    intro e
    rw [e] at hf
    obtain ⟨-, rfl, rfl, rfl⟩ := hf
    revert h; decide
  have ht : (0b000#3 ++ d ++ n ++ l : Word) ≠ 0x2000#16 := by
    intro e
    rw [e] at hf
    exact absurd hf.1 (by decide)
  exact (classify_top _ hz ht).trans (typeOfTop_tlj _ (top_jump _ d n l))

theorem tlx : Statement .tlx := fun _ => classify_tlx

theorem tmj (d : BitVec 1) (n : BitVec 4) (l : Byte) : Statement (.tmj d n l) := by
  intro h
  have hf := jump_fields 0b001#3 d n l
  have hz : (0b001#3 ++ d ++ n ++ l : Word) ≠ 0x0000#16 := by
    intro e
    rw [e] at hf
    exact absurd hf.1 (by decide)
  have ht : (0b001#3 ++ d ++ n ++ l : Word) ≠ 0x2000#16 := by
    intro e
    rw [e] at hf
    obtain ⟨-, rfl, rfl, rfl⟩ := hf
    revert h; decide
  exact (classify_top _ hz ht).trans (typeOfTop_tmj _ (top_jump _ d n l))

theorem tmx : Statement .tmx := fun _ => classify_tmx

theorem bru (a : Addr) : Statement (.bru a) := fun _ => classify_opcode _ _ _ (by decide)

theorem brl (a : Addr) : Statement (.brl a) := fun _ => classify_opcode _ _ _ (by decide)

theorem ldx (r : BitVec 3) (n : Byte) : Statement (.ldx r n) := fun _ => classify_opcode _ _ _ (by decide)

theorem cpx (r : BitVec 3) (n : Byte) : Statement (.cpx r n) := fun _ => classify_opcode _ _ _ (by decide)

theorem sta (r : BitVec 3) (m : BitVec 2) (p : BitVec 6) : Statement (.sta r m p) := fun _ => by
  rw [encode_sta]; exact classify_opcode _ _ _ (by decide)

theorem ioc (h : BitVec 3) (f : Byte) : Statement (.ioc h f) := fun _ => classify_opcode _ _ _ (by decide)

theorem unknown (w : Word) : Statement (.unknown w) := by
  intro h
  have hw : (0x5000 ≤ w.toNat ∧ w.toNat ≤ 0x7FFF) ∨ 0xA000 ≤ w.toNat := by
    simpa [Instr.wellFormed, isUnknownWord] using h
  have h0 : w ≠ 0x0000#16 := by rintro rfl; simp at hw
  have h2 : w ≠ 0x2000#16 := by rintro rfl; simp at hw
  have key : ∀ t : BitVec 5, ((10 ≤ t.toNat ∧ t.toNat ≤ 15) ∨ 20 ≤ t.toNat) → typeOfTop t = .unknown := by decide
  have htop : (w.extractLsb' 11 5).toNat = w.toNat / 2048 := by
    rw [BitVec.extractLsb'_toNat, Nat.shiftRight_eq_div_pow]
    have := w.isLt
    omega
  exact (classify_top w h0 h2).trans (key _ (by rw [htop]; omega))

end Sys2Proof.Laws.EncodedRow
end

