-- ==== Sys2Proof/Laws/Step.lean ====
section
/-! SUPPORT. What the shared phases of a step do, and the one inversion of `exec`: everything an instruction that answers
a next state has done. -/

namespace Sys2Proof.Machine

/-! ### Fetch -/

theorem fetch_ok {s : State} {c : Fetched} (h : fetch s = .ok c) :
    activeIaw s = .ok c.iaw ∧ fetchWord s c.iaw = .ok c.word := by
  unfold fetch at h
  split at h
  · cases h
  rename_i a ha
  split at h
  · cases h
  rename_i w hw
  cases h
  exact ⟨ha, hw⟩

theorem fetch_of {s : State} {a : Addr} {w : Word} (ha : activeIaw s = .ok a) (hw : fetchWord s a = .ok w) :
    fetch s = .ok ⟨a, w⟩ := by
  simp only [fetch, ha, hw]

theorem fetchWord_of_bytes {s : State} {a : Addr} {b0 b1 : Byte} (h : a.toNat + 1 < memSize)
    (h0 : Memory.read s.mem a.toNat = some b0) (h1 : Memory.read s.mem (a.toNat + 1) = some b1) :
    fetchWord s a = .ok (composeWord s.cfg.wordOrder b0 b1) := by
  have ha : a.toNat < memSize := by omega
  unfold fetchWord
  rw [memRead_ok.mpr ⟨ha, h0⟩]
  simp only
  rw [memRead_ok.mpr ⟨h, h1⟩]

theorem fetchWord_ok {s : State} {a : Addr} {w : Word} (h : fetchWord s a = .ok w) :
    a.toNat + 1 < memSize ∧ ∃ b0 b1, Memory.read s.mem a.toNat = some b0 ∧
      Memory.read s.mem (a.toNat + 1) = some b1 ∧ w = composeWord s.cfg.wordOrder b0 b1 := by
  unfold fetchWord at h
  split at h
  · cases h
  rename_i b0 hb0
  split at h
  · cases h
  rename_i b1 hb1
  exact ⟨(memRead_ok.mp hb1).1, b0, b1, (memRead_ok.mp hb0).2, (memRead_ok.mp hb1).2, (Except.ok.inj h).symm⟩

/-- Where the IAW can be read, the slot lies inside memory. -/
theorem slot_lt_of_activeIaw {s : State} {a : Addr} (h : activeIaw s = .ok a) : (slotAddr s).toNat + 1 < memSize :=
  (readAddrWord_ok h).1

theorem slot_lt_of_fetch {s : State} {c : Fetched} (h : fetch s = .ok c) : (slotAddr s).toNat + 1 < memSize :=
  slot_lt_of_activeIaw (fetch_ok h).1

/-! ### Storing an IAW -/

/-- What storing an address in the active slot does, in a state that has the step's parameters and stack pointer. -/
theorem writeSlot_completes {s t : State} (iaw : Option Addr) (a : Addr) (hlt : (slotAddr s).toNat + 1 < memSize)
    (hc : t.cfg = s.cfg) (hs : t.sp = s.sp) :
    ∃ m, writeAddrWord t iaw (slotAddr s).toNat a = .ok { t with mem := m } ∧
      activeIaw { t with mem := m } = .ok a ∧
      (∀ b, ¬ SlotByte s b → Memory.read m b = Memory.read t.mem b) ∧
      (Memory.wf t.mem = true → Memory.wf m = true) := by
  refine ⟨_, writeAddrWord_of_lt t iaw a hlt, ?_, ?_, ?_⟩
  · have hact : ∀ m, activeIaw { t with mem := m } = readAddrWord { t with mem := m } (slotAddr s).toNat := fun m => by
      unfold activeIaw
      rw [slotAddr_congr (s := s) (t := { t with mem := m }) hc hs]
    rw [hact]
    apply readAddrWord_of_bytes hlt
    · show Memory.read (Memory.write _ _ _) _ = _
      rw [Memory.read_write_other _ _ (by omega), Memory.read_write_same]
    · show Memory.read (Memory.write _ _ _) _ = _
      rw [Memory.read_write_same]
  · intro b hb
    have h0 : b ≠ (slotAddr s).toNat := fun h => hb (.inl h)
    have h1 : b ≠ (slotAddr s).toNat + 1 := fun h => hb (.inr h)
    rw [Memory.read_write_other _ _ h1, Memory.read_write_other _ _ h0]
  · intro hw
    exact Memory.write_wf _ hlt (Memory.write_wf _ (by omega) hw)

/-- What a store to the active slot that succeeded has done. -/
theorem writeSlot_ok {s t u : State} {iaw : Option Addr} {a : Addr} (hc : t.cfg = s.cfg) (hs : t.sp = s.sp)
    (h : writeAddrWord t iaw (slotAddr s).toNat a = .ok u) :
    u = { t with mem := u.mem } ∧ activeIaw u = .ok a ∧
      (∀ b, ¬ SlotByte s b → Memory.read u.mem b = Memory.read t.mem b) ∧
      (Memory.wf t.mem = true → Memory.wf u.mem = true) := by
  obtain ⟨m, hw, ha, hm, hwf⟩ := writeSlot_completes iaw a (writeAddrWord_ok h).1 hc hs
  rw [hw] at h
  cases h
  exact ⟨rfl, ha, hm, hwf⟩

/-- The advance of an instruction that took no branch (R65 phase 4). -/
theorem advance_completes {s : State} {c : Fetched} {e : Effect} (hlt : (slotAddr s).toNat + 1 < memSize)
    (ht : e.taken = false) (hc : e.state.cfg = s.cfg) (hs : e.state.sp = s.sp) :
    ∃ m, advance s c e = .next { e.state with mem := m } ∧
      activeIaw { e.state with mem := m } = .ok c.iaw.nextInstruction ∧
      (∀ b, ¬ SlotByte s b → Memory.read m b = Memory.read e.state.mem b) ∧
      (Memory.wf e.state.mem = true → Memory.wf m = true) := by
  obtain ⟨m, hw, hrest⟩ := writeSlot_completes (some c.iaw) c.iaw.nextInstruction hlt hc hs
  exact ⟨m, by simp [advance, ht, hw], hrest⟩

/-- What the advance has done where it answers a next state and no branch was taken. -/
theorem advance_next {s u t : State} {c : Fetched} (hc : u.cfg = s.cfg) (hs : u.sp = s.sp)
    (h : advance s c ⟨u, false⟩ = .next t) :
    t = { u with mem := t.mem } ∧ activeIaw t = .ok c.iaw.nextInstruction ∧
      (∀ b, ¬ SlotByte s b → Memory.read t.mem b = Memory.read u.mem b) ∧
      (Memory.wf u.mem = true → Memory.wf t.mem = true) := by
  simp only [advance, Bool.false_eq_true, if_false] at h
  split at h
  · cases h
  rename_i v hv
  cases h
  exact writeSlot_ok hc hs hv

/-! ### The whole of one instruction -/

theorem perform_of_body {s : State} {c : Fetched} {e : Effect} {body : Fetched → State → Except Fault Effect}
    (hf : fetch s = .ok c) (hb : body c s = .ok e) : perform body s = advance s c e := by
  simp only [perform, hf, hb]

theorem perform_of_fault {s : State} {c : Fetched} {f : Fault} {body : Fetched → State → Except Fault Effect}
    (hf : fetch s = .ok c) (hb : body c s = .error f) : perform body s = .fault f := by
  simp only [perform, hf, hb]

theorem perform_of_fetch_fault {s : State} {f : Fault} (body : Fetched → State → Except Fault Effect)
    (hf : fetch s = .error f) : perform body s = .fault f := by
  simp only [perform, hf]

theorem advance_not_refused (s : State) (c : Fetched) (e : Effect) (r : Refusal) : advance s c e ≠ .refused r := by
  unfold advance
  split
  · simp
  · split <;> simp

theorem perform_not_refused (body : Fetched → State → Except Fault Effect) (s : State) (r : Refusal) :
    perform body s ≠ .refused r := by
  unfold perform
  split
  · simp
  · split
    · simp
    · exact advance_not_refused _ _ _ _

theorem perform_next {s t : State} {body : Fetched → State → Except Fault Effect} (h : perform body s = .next t) :
    ∃ c e, fetch s = .ok c ∧ body c s = .ok e ∧ advance s c e = .next t := by
  unfold perform at h
  split at h
  · cases h
  rename_i c hc
  split at h
  · cases h
  rename_i e he
  exact ⟨c, e, hc, he, h⟩

/-- A fault of an instruction is one of its fetch, of its execute phase, or of its advance. -/
theorem perform_faults {s : State} {f : Fault} {body : Fetched → State → Except Fault Effect}
    (h : perform body s = .fault f) :
    fetch s = .error f ∨ ∃ c, fetch s = .ok c ∧
      (body c s = .error f ∨ ∃ e, body c s = .ok e ∧ advance s c e = .fault f) := by
  unfold perform at h
  split at h
  · rename_i g hg; cases h; exact .inl hg
  rename_i c hc
  refine .inr ⟨c, hc, ?_⟩
  split at h
  · rename_i g hg; cases h; exact .inl hg
  rename_i e he
  exact .inr ⟨e, he, h⟩

theorem postModify_frame (s : State) (mode : IndexMode) (r : BitVec 3) (x : Byte) :
    (postModify s mode r x).mem = s.mem ∧ (postModify s mode r x).acc = s.acc ∧
      (postModify s mode r x).cmp = s.cmp ∧ (postModify s mode r x).sp = s.sp ∧
      (postModify s mode r x).curTape = s.curTape ∧ (postModify s mode r x).cur1 = s.cur1 ∧
      (postModify s mode r x).cur2 = s.cur2 ∧ (postModify s mode r x).fault = s.fault ∧
      (postModify s mode r x).cfg = s.cfg ∧ ∀ q, q ≠ r → (postModify s mode r x).cell q = s.cell q := by
  cases mode <;> simp only [postModify] <;> simp +contextual [State.setX_cell_other]

theorem staStore_ok {mode : IndexMode} {r : BitVec 3} {p : BitVec 6} {c : Fetched} {s : State} {e : Effect}
    (h : staStore mode r p c s = .ok e) :
    ∃ x v, s.cell r = some x ∧ s.acc = some v ∧ inActiveSlot s (indirectAddr p x) = false ∧
      e = ⟨postModify { s with mem := Memory.write s.mem (indirectAddr p x).toNat v } mode r x, false⟩ := by
  unfold staStore readX readAcc at h
  cases hx : s.cell r with
  | none => simp [hx] at h
  | some x =>
    cases hv : s.acc with
    | none => simp [hx, hv] at h
    | some v =>
      simp only [hx, hv] at h
      split at h
      · cases h
      rename_i hz
      rw [memWrite_of_lt _ _ _ (BitVec.isLt _)] at h
      exact ⟨x, v, rfl, rfl, by simpa using hz, by rw [← hv]; exact (Except.ok.inj h).symm⟩

/-- The execute phase of STA once its checks have passed. -/
theorem staStore_of {mode : IndexMode} {r : BitVec 3} {p : BitVec 6} (c : Fetched) {s : State} {x v : Byte}
    (hx : s.cell r = some x) (hv : s.acc = some v) (hz : inActiveSlot s (indirectAddr p x) = false) :
    staStore mode r p c s =
      .ok ⟨postModify { s with mem := Memory.write s.mem (indirectAddr p x).toNat v } mode r x, false⟩ := by
  have hlt : (indirectAddr p x).toNat < memSize := BitVec.isLt _
  simp [staStore, readX, readAcc, hx, hv, hz, memWrite_of_lt _ _ _ hlt]

/-! ### `exec`, arm by arm -/

theorem exec_tlj (d : BitVec 1) (n : BitVec 4) (l : Byte) (s : State) :
    exec (.tlj d n l) s = perform unimplementedBody s := rfl
theorem exec_tlx (s : State) : exec .tlx s = perform unimplementedBody s := rfl
theorem exec_tmj (d : BitVec 1) (n : BitVec 4) (l : Byte) (s : State) :
    exec (.tmj d n l) s = perform unimplementedBody s := rfl
theorem exec_tmx (s : State) : exec .tmx s = perform unimplementedBody s := rfl
theorem exec_bru (a : Addr) (s : State) : exec (.bru a) s = perform unimplementedBody s := rfl
theorem exec_brl (a : Addr) (s : State) : exec (.brl a) s = perform (brlBody a) s := rfl
theorem exec_ldx (r : BitVec 3) (n : Byte) (s : State) : exec (.ldx r n) s = perform (ldxBody r n) s := rfl
theorem exec_cpx (r : BitVec 3) (n : Byte) (s : State) : exec (.cpx r n) s = perform (cpxBody r n) s := rfl
theorem exec_sta (r : BitVec 3) (m : BitVec 2) (p : BitVec 6) (s : State) :
    exec (.sta r m p) s = perform (staBody r m p) s := rfl
theorem exec_ioc (ch : BitVec 3) (fn : Byte) (s : State) : exec (.ioc ch fn) s = perform (iocBody ch fn) s := rfl
theorem exec_unknown (w : Word) (s : State) : exec (.unknown w) s = perform unknownBody s := rfl

/-- Every instruction is its execute phase between the shared fetch and the shared advance (R65). -/
theorem exec_is_perform (i : Instr) : ∃ body, ∀ s, exec i s = perform body s := by
  cases i with
  | tlj d n l => exact ⟨_, exec_tlj d n l⟩
  | tlx => exact ⟨_, exec_tlx⟩
  | tmj d n l => exact ⟨_, exec_tmj d n l⟩
  | tmx => exact ⟨_, exec_tmx⟩
  | bru a => exact ⟨_, exec_bru a⟩
  | brl a => exact ⟨_, exec_brl a⟩
  | ldx r n => exact ⟨_, exec_ldx r n⟩
  | cpx r n => exact ⟨_, exec_cpx r n⟩
  | sta r m p => exact ⟨_, exec_sta r m p⟩
  | ioc ch fn => exact ⟨_, exec_ioc ch fn⟩
  | unknown w => exact ⟨_, exec_unknown w⟩

theorem unimplemented_no_next {s t : State} (h : perform unimplementedBody s = .next t) : False := by
  obtain ⟨c, e, -, he, -⟩ := perform_next h
  simp [unimplementedBody] at he

theorem unknown_no_next {s t : State} (h : perform unknownBody s = .next t) : False := by
  obtain ⟨c, e, -, he, -⟩ := perform_next h
  simp [unknownBody] at he

/-- Everything an instruction that answers a next state can have done: one of the five executing types, each with the
checks it passed and the effect it handed to the advance (R66). -/
theorem exec_next_cases {i : Instr} {s t : State} (h : exec i s = .next t) : ∃ c, fetch s = .ok c ∧
    ((∃ r n, i = .ldx r n ∧ advance s c ⟨s.setX r n, false⟩ = .next t) ∨
     (∃ r n v, i = .cpx r n ∧ s.cell r = some v ∧ advance s c ⟨s.setCmp (compareBytes v n), false⟩ = .next t) ∨
     (∃ r code p mode x v, i = .sta r code p ∧ s.cfg.modeMap.modeOf code = mode ∧ mode ≠ .reserved ∧
        s.cell r = some x ∧ s.acc = some v ∧ inActiveSlot s (indirectAddr p x) = false ∧
        advance s c ⟨postModify { s with mem := Memory.write s.mem (indirectAddr p x).toNat v } mode r x, false⟩ =
          .next t) ∨
     (∃ ch fn tape, i = .ioc ch fn ∧ ch.toNat < 3 ∧ fn = transferByteBlocking ∧ boundTape s ch = some tape ∧
        advance s c ⟨transferByte tape { s with curTape := some tape }, false⟩ = .next t) ∨
     (∃ a, i = .brl a ∧ s.cmp = .low ∧
        writeAddrWord s (some c.iaw) (slotAddr s).toNat (branchTarget c.iaw a) = .ok t) ∨
     (∃ a, i = .brl a ∧ s.cmp ≠ .low ∧ advance s c ⟨s, false⟩ = .next t)) := by
  cases i with
  | tlj d n l => rw [exec_tlj] at h; exact (unimplemented_no_next h).elim
  | tlx => rw [exec_tlx] at h; exact (unimplemented_no_next h).elim
  | tmj d n l => rw [exec_tmj] at h; exact (unimplemented_no_next h).elim
  | tmx => rw [exec_tmx] at h; exact (unimplemented_no_next h).elim
  | bru a => rw [exec_bru] at h; exact (unimplemented_no_next h).elim
  | unknown w => rw [exec_unknown] at h; exact (unknown_no_next h).elim
  | brl a =>
    rw [exec_brl] at h
    obtain ⟨c, e, hc, he, ha⟩ := perform_next h
    refine ⟨c, hc, ?_⟩
    unfold brlBody at he
    cases hcmp : s.cmp with
    | low =>
      simp only [hcmp] at he
      split at he
      · cases he
      rename_i u hu
      cases he
      simp only [advance, if_true] at ha
      cases ha
      exact .inr (.inr (.inr (.inr (.inl ⟨a, rfl, rfl, hu⟩))))
    | equal =>
      simp only [hcmp] at he
      cases he
      exact .inr (.inr (.inr (.inr (.inr ⟨a, rfl, by simp, ha⟩))))
    | high =>
      simp only [hcmp] at he
      cases he
      exact .inr (.inr (.inr (.inr (.inr ⟨a, rfl, by simp, ha⟩))))
  | ldx r n =>
    rw [exec_ldx] at h
    obtain ⟨c, e, hc, he, ha⟩ := perform_next h
    cases he
    exact ⟨c, hc, .inl ⟨r, n, rfl, ha⟩⟩
  | cpx r n =>
    rw [exec_cpx] at h
    obtain ⟨c, e, hc, he, ha⟩ := perform_next h
    unfold cpxBody readX at he
    cases hv : s.cell r with
    | none => simp [hv] at he
    | some v =>
      simp only [hv] at he
      cases he
      exact ⟨c, hc, .inr (.inl ⟨r, n, v, rfl, hv, ha⟩)⟩
  | sta r code p =>
    rw [exec_sta] at h
    obtain ⟨c, e, hc, he, ha⟩ := perform_next h
    unfold staBody at he
    cases hm : s.cfg.modeMap.modeOf code with
    | reserved => simp [hm] at he
    | _ =>
      simp only [hm] at he
      obtain ⟨x, v, hx, hv, hz, rfl⟩ := staStore_ok he
      exact ⟨c, hc, .inr (.inr (.inl ⟨r, code, p, _, x, v, rfl, hm, by simp, hx, hv, hz, ha⟩))⟩
  | ioc ch fn =>
    rw [exec_ioc] at h
    obtain ⟨c, e, hc, he, ha⟩ := perform_next h
    unfold iocBody at he
    split at he
    · cases he
    rename_i hch
    split at he
    · cases he
    rename_i hfn
    cases hb : boundTape s ch with
    | none => simp [hb] at he
    | some tape =>
      simp only [hb] at he
      cases he
      exact ⟨c, hc, .inr (.inr (.inr (.inl ⟨ch, fn, tape, rfl, by omega, by simpa using hfn, hb, ha⟩)))⟩

/-- A step that answers a next state ran one instruction, with no fault recorded. -/
theorem step_next {s t : State} (h : step s = .next t) : s.fault = none ∧ ∃ i, exec i s = .next t := by
  unfold step at h
  split at h
  · cases h
  rename_i hf
  refine ⟨hf, ?_⟩
  split at h
  · cases h
  split at h
  · rename_i i _; exact ⟨i, h⟩
  · exact (unimplemented_no_next h).elim

/-- A machine whose step answers the very same state stays there. -/
theorem run_of_fixed (M : Host.Core) {s : M.State} (h : M.step s = .next s) (k : Nat) : M.run k s = .next s := by
  induction k with
  | zero => rfl
  | succ k ih =>
    rw [Host.Core.run]
    simp only [h, ih]

end Sys2Proof.Machine
end

