-- ==== Sys2Proof/Laws/Placement.lean ====
section
/-! SUPPORT. Placing a program word, what loading can do, and the canonical form of the memories they make. -/

namespace Sys2Proof.Machine

theorem State.reset_mem_wf : Memory.wf State.reset.mem = true := by decide

/-- Loading bytes inside memory keeps the canonical form. -/
theorem Memory.writeBytes_wf (bytes : List Byte) {m : Memory} {start : Nat} (h : start + bytes.length ≤ memSize)
    (hw : Memory.wf m = true) : Memory.wf (Memory.writeBytes m start bytes) = true := by
  induction bytes generalizing m start with
  | nil => exact hw
  | cons b rest ih =>
    have hl : start + 1 + rest.length ≤ memSize := by simp only [List.length_cons] at h; omega
    exact ih hl (Memory.write_wf b (by omega) hw)

/-- Everything `load` can do when it is not refused. -/
theorem load_some {s t : State} {start : Nat} {bytes : List Byte} (h : load s start bytes = some t) :
    start + bytes.length ≤ memSize ∧ t = { s with mem := Memory.writeBytes s.mem start bytes } := by
  unfold load at h
  split at h
  · rename_i hle; exact ⟨hle, (Option.some.inj h).symm⟩
  · cases h

/-- Loads change memory and nothing else. -/
theorem loadAll_frame {loads : List (Nat × List Byte)} {s t : State} (h : loadAll s loads = some t) :
    t = { s with mem := t.mem } := by
  induction loads generalizing s with
  | nil => cases h; rfl
  | cons l rest ih =>
    simp only [loadAll] at h
    split at h
    · rename_i u hu
      have ht := ih h
      rw [(load_some hu).2] at ht
      exact ht
    · cases h

/-- The last of several loads is a load after the others. -/
theorem loadAll_append_last (earlier : List (Nat × List Byte)) (start : Nat) (bytes : List Byte) (s : State) :
    loadAll s (earlier ++ [(start, bytes)]) = (loadAll s earlier).bind fun u => load u start bytes := by
  induction earlier generalizing s with
  | nil => simp only [List.nil_append, loadAll, Option.bind_some]; cases load s start bytes <;> rfl
  | cons l rest ih =>
    simp only [List.cons_append, loadAll]
    cases load s l.1 l.2 with
    | none => rfl
    | some u => exact ih u

theorem composeWord_wordBytes (order : WordOrder) (w : Word) :
    composeWord order (wordBytes order w).1 (wordBytes order w).2 = w := by
  have key : (w.extractLsb' 8 8 ++ w.extractLsb' 0 8 : Word) = w := by
    apply BitVec.eq_of_getLsbD_eq
    intro i hi
    simp only [BitVec.getLsbD_append, BitVec.getLsbD_extractLsb', Nat.zero_add]
    by_cases h : i < 8
    · simp only [h, decide_true, Bool.true_and, if_true]
    · have h1 : i - 8 < 8 := by omega
      have h2 : 8 + (i - 8) = i := by omega
      simp only [h, h1, h2, decide_true, Bool.true_and, if_false]
  cases order <;> exact key

/-- The placed word is what the next step fetches, wherever an instruction can lie off the active IAW slot. -/
theorem placeFetchWord_fetch (s : State) (nbits w : Nat) (hslot : (slotAddr s).toNat + 1 < memSize)
    (hfree : fetchSiteFree s (fetchSite s) = true) :
    fetch (placeFetchWord s nbits w) = .ok ⟨fetchSite s, BitVec.ofNat 16 (w % 2 ^ nbits)⟩ := by
  simp only [fetchSiteFree, Bool.and_eq_true, Bool.or_eq_true, decide_eq_true_eq] at hfree
  obtain ⟨hlt, hoff⟩ := hfree
  apply fetch_of
  · apply readAddrWord_of_bytes (s := placeFetchWord s nbits w) (slot := (slotAddr s).toNat) hslot
    · show Memory.read (Memory.write (Memory.write (Memory.write (Memory.write _ _ _) _ _) _ _) _ _) _ = _
      rw [Memory.read_write_other _ _ (by omega), Memory.read_write_other _ _ (by omega),
        Memory.read_write_other _ _ (by omega), Memory.read_write_same]
      rfl
    · show Memory.read (Memory.write (Memory.write (Memory.write (Memory.write _ _ _) _ _) _ _) _ _) _ = _
      rw [Memory.read_write_other _ _ (by omega), Memory.read_write_other _ _ (by omega), Memory.read_write_same]
      rfl
  · rw [fetchWord_of_bytes (s := placeFetchWord s nbits w) (a := fetchSite s) hlt
      (b0 := (wordBytes s.cfg.wordOrder (BitVec.ofNat 16 (w % 2 ^ nbits))).1)
      (b1 := (wordBytes s.cfg.wordOrder (BitVec.ofNat 16 (w % 2 ^ nbits))).2)]
    · exact congrArg Except.ok (composeWord_wordBytes _ _)
    · show Memory.read (Memory.write (Memory.write _ _ _) _ _) _ = _
      rw [Memory.read_write_other _ _ (by omega), Memory.read_write_same]
    · show Memory.read (Memory.write (Memory.write _ _ _) _ _) _ = _
      rw [Memory.read_write_same]

end Sys2Proof.Machine
end

