-- ==== Sys2Proof/Tests/Slice0.lean ====
section
/-! SUPPORT. The model's own tests: words written out from the spec's encodings, vectors of spec/95_test_vectors.md, ill-formed
terms, and a witness for the hypotheses of every statement. -/

namespace Sys2Proof.Tests

-- One theorem after the other: elaborating them side by side takes a thread for each.
set_option Elab.async false

open Sys2Proof.Machine

/-! ### Helpers -/

/-- The reset state with one word at P10-000. -/
def at0800 (w : Nat) : State := State.reset.withFetchWord 16 w

/-- A register cell put to a value or to unwritten. -/
def withCell (s : State) (r : Fin 8) (v : Option Byte) : State := { s with x := s.x.set r.val v r.isLt }

def withAcc (s : State) (v : Option Byte) : State := { s with acc := v }

def withCmp (s : State) (c : Cmp) : State := { s with cmp := c }

def withTapes (s : State) (t1 t2 : List Byte) : State := s.withTapes t1 t2

/-- A word placed at any address, with the IAW there. -/
def placedAt (a : Addr) (w : Word) : State :=
  let b := addrWordBytes .pageFirst a
  let m := Memory.write (Memory.write State.reset.mem 0 b.1) 1 b.2
  { State.reset with
    mem := Memory.write (Memory.write m a.toNat (w.extractLsb' 8 8)) (a.toNat + 1) (w.extractLsb' 0 8) }

def nextOf : Host.Outcome State Fault Refusal → Option State
  | .next s => some s
  | _ => none

def faultOf : Host.Outcome State Fault Refusal → Option Fault
  | .fault f => some f
  | _ => none

def refusalOf : Host.Outcome State Fault Refusal → Option Refusal
  | .refused r => some r
  | _ => none

/-- The active IAW of the next state. -/
def iawAfter (o : Host.Outcome State Fault Refusal) : Option Addr :=
  match o with
  | .next s =>
    match activeIaw s with
    | .ok a => some a
    | .error _ => none
  | _ => none

/-! ### Well-formedness: an ill-formed term for each check -/

theorem test_illformed_tlj_zero : Instr.wellFormed (.tlj 0#1 0#4 0#8) = false := by decide
theorem test_illformed_tmj_zero : Instr.wellFormed (.tmj 0#1 0#4 0#8) = false := by decide
theorem test_illformed_bru_section : Instr.wellFormed (.bru 0x0A00#14) = false := by decide
theorem test_illformed_brl_section : Instr.wellFormed (.brl 0x0200#14) = false := by decide
theorem test_illformed_unknown_word : Instr.wellFormed (.unknown 0x8000#16) = false := by decide
theorem test_illformed_unknown_below : Instr.wellFormed (.unknown 0x4FFF#16) = false := by decide
theorem test_wellformed_unknown_bounds :
    Instr.wellFormed (.unknown 0x5000#16) = true ∧ Instr.wellFormed (.unknown 0x7FFF#16) = true ∧
      Instr.wellFormed (.unknown 0xA000#16) = true ∧ Instr.wellFormed (.unknown 0x9FFF#16) = false := by decide

/-! ### Decoding: bytes written out from R54's bit maps (left byte first) -/

theorem test_decode_tlj : decodeBytes Config.default [0b00010000#8, 0b00100010#8] = .ok (.tlj 1#1 0#4 34#8, []) := by
  decide +kernel
theorem test_decode_tlx : decodeBytes Config.default [0b00000000#8, 0b00000000#8] = .ok (.tlx, []) := by decide +kernel
theorem test_decode_tmj :
    decodeBytes Config.default [0b00100011#8, 0b10000001#8] = .ok (.tmj 0#1 3#4 0b10000001#8, []) := by decide +kernel
theorem test_decode_tmx : decodeBytes Config.default [0b00100000#8, 0b00000000#8] = .ok (.tmx, []) := by decide +kernel
theorem test_decode_bru : decodeBytes Config.default [0b01000111#8, 0b11111111#8] = .ok (.bru 0x07FF#14, []) := by
  decide +kernel
theorem test_decode_brl : decodeBytes Config.default [0b01001111#8, 0b00010000#8] = .ok (.brl 0x0F10#14, []) := by
  decide +kernel
theorem test_decode_ldx : decodeBytes Config.default [0b10000011#8, 0b00000101#8] = .ok (.ldx 3#3 5#8, []) := by
  decide +kernel
theorem test_decode_cpx : decodeBytes Config.default [0b10001111#8, 0b00000000#8] = .ok (.cpx 7#3 0#8, []) := by
  decide +kernel
theorem test_decode_sta :
    decodeBytes Config.default [0b10010010#8, 0b10011111#8] = .ok (.sta 2#3 2#2 0o37#6, []) := by decide +kernel
theorem test_decode_ioc :
    decodeBytes Config.default [0b10011001#8, 0b00000111#8, 0xAA#8] = .ok (.ioc 1#3 7#8, [0xAA#8]) := by decide +kernel
theorem test_decode_unknown :
    decodeBytes Config.default [0b01111111#8, 0b11111111#8] = .ok (.unknown 0x7FFF#16, []) := by decide +kernel
theorem test_decode_truncated : decodeBytes Config.default [0x83#8] = .error .truncated := by decide
theorem test_decodeTableWord : decodeTableWord 16 0x9150 = some (.sta 1#3 1#2 0o20#6) := by decide +kernel

/-! ### The address codec (vectors A2, A3, A5, A8, A9, A10, A12) and R10's notation -/

theorem test_A2_A3 : addrOfSection 7#3 7#3 255#8 = 0x3FFF#14 ∧ addrOfSection 3#3 5#3 0o100#8 = 0x1D40#14 := by decide
theorem test_A5_wrap : Addr.nextInstruction 0x3FFF#14 = 0x0001#14 ∧ Addr.nextInstruction 0x3FFE#14 = 0x0000#14 := by
  decide
theorem test_A8_A9 : Addr.withSection 0x0802#14 3#3 = 0x1802#14 ∧ Addr.withLevel 0x1802#14 7#3 = 0x1F02#14 ∧
    Addr.withLocation 0x1802#14 0xFF#8 = 0x18FF#14 ∧ Addr.withPage 0x1802#14 0#6 = 0x0002#14 := by decide
theorem test_A10 : addrOfLinear 0x4000 = none ∧ addrOfLinear 0x3FFF = some 0x3FFF#14 := by decide
theorem test_A12 : readAddrWord { State.reset with mem := [(0, 0x48#8), (1, 0#8)] } 0 =
    .error (.iawNonCanonical 0 0x48#8) := by decide
theorem test_address_text : parseAddress ['P', '0', '1', '-', '1', '0', '0'] = .ok 0x0140#14 ∧
    renderAddress 0x3FFF#14 = ['P', '7', '7', '-', '3', '7', '7'] := by decide
theorem test_address_text_malformed :
    parseAddress ['P', '0', '1', '-', '1', '0'] = .error .length ∧
    parseAddress ['Q', '0', '1', '-', '1', '0', '0'] = .error .page ∧
    parseAddress ['P', '0', '1', '+', '1', '0', '0'] = .error .dash ∧
    parseAddress ['P', '0', '8', '-', '1', '0', '0'] = .error .digit ∧
    parseAddress ['P', '0', '1', '-', '4', '0', '0'] = .error .location := by decide

/-! ### Disassembly (vectors C5, C9, C17, C18) -/

theorem test_text_tlj : disassemble Config.default 0x1F05#16 = ['T', 'L', 'J', ' ', '-', '1', '5', ' ', '5'] := by
  decide +kernel
theorem test_text_tmj : disassemble Config.default 0x3381#16 =
    ['T', 'M', 'J', ' ', '-', '3', ' ', '1', '0', '0', '0', '0', '0', '0', '1'] := by decide +kernel
theorem test_text_sta : disassemble Config.default 0x9280#16 = ['S', 'T', 'A', ' ', 'D', '#', '2', ' ', 'P', '0', '0'] := by
  decide +kernel
theorem test_text_ioc : disassemble Config.default 0x9A01#16 =
    ['I', 'O', 'C', ' ', 'C', '#', '2', ' ', ';', ' ', 't', 'a', 'p', 'e', ' ', '#', '2', ' ', '?', '?', '?'] := by
  decide +kernel

/-! ### LDX, CPX (vectors L1, L3, L4, L6, L8) -/

theorem test_ldx_L1 : (nextOf (step (at0800 0x80FF))).map (fun t => (t.cell 0#3, t.cmp)) = some (some 255#8, .equal) ∧
    iawAfter (step (at0800 0x80FF)) = some 0x0802#14 := by decide +kernel
theorem test_ldx_L3_overwrites :
    (nextOf (step (withCell (at0800 0x8203) 2 none))).map (fun t => t.cell 2#3) = some (some 3#8) := by decide +kernel
theorem test_cpx_L4_unsigned :
    (nextOf (step (withCell (at0800 0x897F) 1 (some 0x80#8)))).map State.cmp = some .high := by decide +kernel
theorem test_cpx_L8_unwritten : faultOf (step (withCell (at0800 0x8800) 0 none)) =
    some (.unwrittenRegister 0x0800#14 0x8800#16 (.index 0#3)) := by decide +kernel

/-! ### STA (vectors T2, T3, T5, T6, T7, T8, T9, T11) -/

theorem test_sta_T2_wraps :
    (nextOf (step (withAcc (withCell (at0800 0x9150) 1 (some 255#8)) (some 0x11#8)))).map
      (fun t => (Memory.read t.mem 0x10FF, t.cell 1#3)) = some (some 0x11#8, some 0#8) := by decide +kernel
theorem test_sta_T3_decrement :
    (nextOf (step (withAcc (at0800 0x929F) (some 0x22#8)))).map
      (fun t => (Memory.read t.mem 0x1F00, t.cell 2#3)) = some (some 0x22#8, some 255#8) := by decide +kernel
theorem test_sta_T11_reserved_first :
    faultOf (step (withAcc (withCell (at0800 0x92D0) 2 (some 5#8)) none)) =
      some (.reservedIndexingMode 0x0800#14 0x92D0#16) := by decide +kernel
theorem test_sta_T6_acc_unwritten : faultOf (step (withAcc (at0800 0x9150) none)) =
    some (.unwrittenRegister 0x0800#14 0x9150#16 .accumulator) := by decide +kernel
theorem test_sta_T8_hazard : faultOf (step (withCell (at0800 0x9200) 2 (some 1#8))) =
    some (.iawHazard 0x0800#14 0x9200#16 0x0001#14) := by decide +kernel
theorem test_sta_T9_inactive_slot :
    (nextOf (step (withAcc (withCell (at0800 0x9200) 2 (some 2#8)) (some 0x22#8)))).map
      (fun t => Memory.read t.mem 2) = some (some 0x22#8) := by decide +kernel

/-! ### IOC (vectors I1, I2, I3, I5, I7, I8) -/

theorem test_ioc_I1 : (nextOf (step (withTapes (at0800 0x9907) [0x11#8, 0x22#8] []))).map
    (fun t => (t.acc, t.curTape, t.cur1)) = some (some 0x11#8, some .tape1, 1) := by decide +kernel
theorem test_ioc_I2_no_tape : faultOf (step (at0800 0x9807)) = some (.noCurrentTape 0x0800#14 0x9807#16 0#3 7#8) := by
  decide +kernel
theorem test_ioc_I3_end_of_tape : (nextOf (step (at0800 0x9A07))).map (fun t => (t.acc, t.curTape, t.cur2)) =
    some (some 0xFF#8, some .tape2, 1) := by decide +kernel
theorem test_ioc_I5_channel : faultOf (step (at0800 0x9B07)) =
    some (.unimplementedOperation 0x0800#14 0x9B07#16 3#3 7#8) := by decide +kernel
theorem test_ioc_I7_function_commits_nothing :
    (hostStep { at0800 0x9A01 with curTape := some .tape1 }).curTape = some .tape1 ∧
    (hostStep { at0800 0x9A01 with curTape := some .tape1 }).fault =
      some (.unimplementedOperation 0x0800#14 0x9A01#16 2#3 1#8) := by decide +kernel

/-! ### BRL, BRU (vectors B1, B2, B4, B5, B6, B8) -/

theorem test_brl_B2_section : iawAfter (step (withCmp (placedAt 0x1800#14 0x4802#16) .low)) = some 0x1802#14 := by
  decide +kernel
theorem test_brl_B4_not_taken : iawAfter (step (withCmp (at0800 0x4FFF) .high)) = some 0x0802#14 := by decide +kernel
theorem test_brl_B6 : iawAfter (step (withCmp (at0800 0x4F10) .low)) = some 0x0F10#14 := by decide +kernel
theorem test_bru_B8 : faultOf (step (at0800 0x4200)) = some (.unimplementedInstruction 0x0800#14 0x4200#16
    ['B', 'R', 'U', ' ', 'P', '0', '2', '-', '0', '0', '0']) := by decide +kernel

/-! ### Unimplemented, Unknown and the step (vectors S12, U1, U2, U3, F1 to F6) -/

theorem test_tlj_S12 : faultOf (step (at0800 0x1022)) =
    some (.unimplementedInstruction 0x0800#14 0x1022#16 ['T', 'L', 'J', ' ', '0', ' ', '3', '4']) := by decide +kernel
theorem test_tlx_U1 : faultOf (step (at0800 0x0000)) =
    some (.unimplementedInstruction 0x0800#14 0x0000#16 ['T', 'L', 'X']) := by decide +kernel
theorem test_tmj_U2 : faultOf (step (at0800 0x2381)) = some (.unimplementedInstruction 0x0800#14 0x2381#16
    ['T', 'M', 'J', ' ', '3', ' ', '1', '0', '0', '0', '0', '0', '0', '1']) := by decide +kernel
theorem test_tmx : faultOf (step (at0800 0x2000)) =
    some (.unimplementedInstruction 0x0800#14 0x2000#16 ['T', 'M', 'X']) := by decide +kernel
theorem test_unknown_U3 : faultOf (step (at0800 0xA000)) =
    some (.unknownInstruction 0x0800#14 0xA000#16 ['2', '4', '0', '-', '0', '0', '0']) := by decide +kernel
theorem test_F1_nothing_loaded : faultOf (step State.reset) = some (.unwrittenMemory (some 0x0800#14) 0x0800) := by
  decide +kernel
theorem test_F2_half_loaded :
    faultOf (step { State.reset with mem := [(0, 0x08#8), (1, 0#8), (0x0800, 0x83#8)] }) =
      some (.unwrittenMemory (some 0x0800#14) 0x0801) := by decide +kernel
theorem test_F3_top_of_memory :
    faultOf (step { State.reset with mem := [(0, 0x3F#8), (1, 0xFF#8), (0x3FFF, 0x83#8)] }) =
      some (.boundsViolation (some 0x3FFF#14) 0x4000) := by decide +kernel
theorem test_F4_wraps : iawAfter (step (placedAt 0x3FFE#14 0x8100#16)) = some 0x0000#14 := by decide +kernel
theorem test_F5_load_overruns : load State.reset 0x3FFF [1#8, 2#8] = none := by decide
theorem test_F6_after_a_fault :
    refusalOf (step { State.reset with fault := some (.noCurrentTape 0#14 0#16 0#3 7#8) }) =
      some (.engineStopped (.noCurrentTape 0#14 0#16 0#3 7#8)) := by decide

/-! ### Reset, launch, run, dump -/

/-- S14, in its own form: `reset()` of the powered-on machine. -/
theorem test_reset_S14 : (match resetOp State.powerOn with | .ok t => some t.mem | .error _ => none) =
    some [(0, 0x08#8), (1, 0x00#8)] := by decide
theorem test_launch_loads_then_resets :
    (launch State.powerOn [(0, [0xAA#8, 0xBB#8, 0xCC#8])]).map State.mem =
      some [(0, 0x08#8), (1, 0x00#8), (2, 0xCC#8)] := by decide
theorem test_dump : (dump State.reset).iaw = some ['P', '1', '0', '-', '0', '0', '0'] ∧
    (dump State.reset).instruction = none ∧ (dump State.reset).cmp = 'E' ∧
    (dump (withCell State.reset 7 none)).index[7]? = some (7, none) := by decide +kernel

/-! ### Witnesses: a state and operands that meet the hypotheses of each statement, clause by clause -/

theorem witness_DecodeEncodeRoundTrip :
    Instr.wellFormed (.tlj 1#1 15#4 255#8) = true ∧ Instr.wellFormed (.sta 7#3 3#2 63#6) = true ∧
      Instr.wellFormed (.brl 0x0FFF#14) = true := by decide
theorem witness_MostSpecificRowWins_overlap :
    (defaultDefs.filter fun d => d.matchesWord 0x2000#16).map DefRow.type = [.unknown, .tmj, .tmx] := by decide
theorem witness_MostSpecificRowWins_no_row : ∀ d ∈ ([] : List DefRow), d.matchesWord 0x2000#16 = false := by decide
theorem witness_AddressTextRoundTrip_digit :
    (['P', '0', '1', '-', '1', '0', '8'] : Text).length = 7 ∧ ¬ ('0' ≤ '8' ∧ '8' ≤ '7') := by decide
theorem witness_MemoryPortRules : Memory.read State.reset.mem 0 = some 8#8 ∧ Memory.read State.reset.mem 16383 = none := by
  decide
theorem witness_CanonicalMemoryIsUnique : Memory.wf [(0, 1#8), (16383, 2#8)] = true := by decide
theorem witness_FetchWordRules :
    State.reset.cfg.wordOrder = .leftFirst ∧ Memory.read (at0800 0x8305).mem 0x0800 = some 0x83#8 ∧
      Memory.read (at0800 0x8305).mem 0x0801 = some 5#8 ∧
      Memory.read [(0x3FFF, 0x83#8)] (0x3FFF#14 : Addr).toNat = some 0x83#8 := by decide +kernel
theorem witness_ReadAddrWordRules :
    State.reset.cfg.addrWordOrder = .pageFirst ∧ Memory.read State.reset.mem 0 = some 0x08#8 ∧
      (0x08#8).toNat < 64 ∧ 64 ≤ (0x40#8).toNat ∧ 16382 + 1 < 16384 := by decide
theorem witness_SlotAddressInsideMemory : State.reset.cfg.iawBase.toNat + 63 ≤ 16383 ∧
    ({ Config.default with iawBase := 16320#14 } : Config).iawBase.toNat + 63 = 16383 := by decide
theorem witness_StepRunsDecodedInstruction :
    (at0800 0x8305).fault = none ∧ activeIaw (at0800 0x8305) = .ok 0x0800#14 ∧
      Memory.read (at0800 0x8305).mem 0x0800 = some 0x83#8 ∧ Memory.read (at0800 0x8305).mem 0x0801 = some 5#8 ∧
      decodeBytes (at0800 0x8305).cfg [0x83#8, 5#8] = .ok (.ldx 3#3 5#8, []) := by decide +kernel

/-- A machine whose `DEFS` has one row more, of a type that has no rule. -/
def longerDefs : State :=
  { at0800 0xA123 with
    cfg := { Config.default with defs := defaultDefs ++ [⟨.other 0, ['X', 'Y', 'Z'], 0xA000#16, 0xF800#16, [.literal]⟩] } }

theorem witness_UnnamedTypesFault : longerDefs.fault = none ∧ fetch longerDefs = .ok ⟨0x0800#14, 0xA123#16⟩ ∧
    classify longerDefs.cfg.defs 0xA123#16 = .other 0 := by decide +kernel
theorem test_unnamed_type_text : faultOf (step longerDefs) =
    some (.unimplementedInstruction 0x0800#14 0xA123#16 ['X', 'Y', 'Z', ' ', '3', '5']) := by decide +kernel
theorem witness_FetchFaultsComeFirst :
    State.reset.fault = none ∧
      activeIaw { State.reset with mem := [] } = .error (.unwrittenMemory none 0) ∧
      activeIaw State.reset = .ok 0x0800#14 ∧
      fetchWord State.reset 0x0800#14 = .error (.unwrittenMemory (some 0x0800#14) 0x0800) := by decide +kernel
theorem witness_NoStepAfterFault :
    ({ State.reset with fault := some (.boundsViolation none 0) } : State).fault ≠ none := by decide
theorem witness_FaultsArePrecise : (faultOf (step (at0800 0x1022))).isSome = true := by decide +kernel
theorem witness_step_next : (nextOf (step (at0800 0x8305))).isSome = true := by decide +kernel
theorem witness_Inv : Inv (at0800 0x8305) where
  memory := by decide +kernel
  slotsFit := by decide
  iaw := ⟨0x0800#14, by decide +kernel⟩
  index := by decide +kernel
  acc := by decide +kernel
  noFault := rfl
theorem witness_FaultsOfInvariantStates : Inv (placedAt 0x3FFE#14 0xA000#16) ∧
    (faultOf (step (placedAt 0x3FFE#14 0xA000#16))).isSome = true :=
  ⟨⟨by decide +kernel, by decide, ⟨0x3FFE#14, by decide +kernel⟩, by decide +kernel, by decide +kernel, rfl⟩,
    by decide +kernel⟩

/-- The invariant state whose fetch lies at the top of memory: the bounds clause is met. -/
theorem witness_FaultsOfInvariantStates_bounds :
    Inv { State.reset with mem := [(0, 0x3F#8), (1, 0xFF#8), (0x3FFF, 0x83#8)] } :=
  ⟨by decide, by decide, ⟨0x3FFF#14, by decide +kernel⟩, by decide +kernel, by decide +kernel, rfl⟩
theorem witness_frames : (nextOf (exec (.ldx 3#3 5#8) (at0800 0x8305))).isSome = true ∧
    (nextOf (exec (.sta 1#3 1#2 16#6) (at0800 0x9150))).isSome = true ∧
    (nextOf (exec (.ioc 1#3 7#8) (at0800 0x9907))).isSome = true := by decide +kernel
theorem witness_fetch : fetch (at0800 0x8305) = .ok ⟨0x0800#14, 0x8305#16⟩ := by decide +kernel
theorem witness_TapesReachOnlyIoc : ∀ h f, Instr.ldx 0#3 0#8 ≠ .ioc h f := by intro h f e; cases e
theorem witness_CpxComparesUnsigned : fetch (withCell (at0800 0x8800) 0 none) = .ok ⟨0x0800#14, 0x8800#16⟩ ∧
    (withCell (at0800 0x8800) 0 none).cell 0#3 = none ∧ (at0800 0x8800).cell 0#3 = some 0#8 := by decide +kernel
theorem witness_StaStoresAndPostModifies :
    fetch (at0800 0x9150) = .ok ⟨0x0800#14, 0x9150#16⟩ ∧
      (at0800 0x9150).cfg.modeMap.modeOf 3#2 = .reserved ∧ (at0800 0x9150).cfg.modeMap.modeOf 1#2 = .increment ∧
      (at0800 0x9150).cfg.modeMap.modeOf 2#2 = .decrement ∧ (at0800 0x9150).cfg.modeMap.modeOf 0#2 = .unchanged ∧
      (at0800 0x9150).cell 1#3 = some 0#8 ∧ (at0800 0x9150).acc = some 0#8 ∧
      inActiveSlot (at0800 0x9150) (indirectAddr 0#6 1#8) = true ∧
      inActiveSlot (at0800 0x9150) (indirectAddr 0#6 2#8) = false := by decide +kernel
theorem witness_StaStoresAndPostModifies_unwritten :
    (withCell (at0800 0x9150) 1 none).cell 1#3 = none ∧ (withAcc (at0800 0x9150) none).acc = none := by decide +kernel
theorem witness_IocTransfersTapeByte :
    fetch (at0800 0x9807) = .ok ⟨0x0800#14, 0x9807#16⟩ ∧ (at0800 0x9807).curTape = none ∧
      (withTapes (at0800 0x9907) [1#8] []).cursor .tape1 <
        (tapeBytes (withTapes (at0800 0x9907) [1#8] []).cfg .tape1).length ∧
      (tapeBytes (at0800 0x9907).cfg .tape1).length ≤ (at0800 0x9907).cursor .tape1 ∧ (2#3 : BitVec 3).toNat < 3 ∧
      3 ≤ (3#3 : BitVec 3).toNat := by decide +kernel
theorem witness_BrlBranchesOnLow : fetch (withCmp (at0800 0x4802) .low) = .ok ⟨0x0800#14, 0x4802#16⟩ ∧
    (withCmp (at0800 0x4802) .low).cmp = .low ∧ (at0800 0x4802).cmp ≠ .low := by decide +kernel
theorem witness_stops : fetch (at0800 0x1022) = .ok ⟨0x0800#14, 0x1022#16⟩ ∧
    fetch State.reset = .error (.unwrittenMemory (some 0x0800#14) 0x0800) := by decide +kernel

/-- STA at P10-000 storing 0x22 into the left byte of the next instruction, whose right byte is written (vector T10). -/
def selfModifying : State :=
  let s := withAcc (withCell (at0800 0x9208) 2 (some 2#8)) (some 0x22#8)
  { s with mem := Memory.write s.mem 0x0803 0x55#8 }

theorem witness_StoreSeenByNextFetch :
    selfModifying.cfg.wordOrder = .leftFirst ∧ fetch selfModifying = .ok ⟨0x0800#14, 0x9208#16⟩ ∧
      indirectAddr 0o10#6 2#8 = Addr.nextInstruction 0x0800#14 ∧
      (nextOf (exec (.sta 2#3 0#2 0o10#6) selfModifying)).map fetch = some (.ok ⟨0x0802#14, 0x2255#16⟩) := by
  decide +kernel

/-- The same store one byte further, into the right byte of the next instruction, whose left byte is written. -/
def selfModifyingSecond : State :=
  let s := withAcc (withCell (at0800 0x9208) 2 (some 3#8)) (some 0x22#8)
  { s with mem := Memory.write s.mem 0x0802 0x83#8 }

theorem witness_StoreSeenByNextFetch_second :
    selfModifyingSecond.cfg.wordOrder = .leftFirst ∧ fetch selfModifyingSecond = .ok ⟨0x0800#14, 0x9208#16⟩ ∧
      (indirectAddr 0o10#6 3#8).toNat = (Addr.nextInstruction 0x0800#14).toNat + 1 ∧
      (nextOf (exec (.sta 2#3 0#2 0o10#6) selfModifyingSecond)).map fetch =
        some (.ok ⟨0x0802#14, 0x8322#16⟩) := by decide +kernel
theorem witness_LoadPlacesBytes : 16382 + [1#8, 2#8].length ≤ 16384 ∧ 16384 < 16383 + [1#8, 2#8].length := by decide
theorem witness_LaunchEndsWithReset :
    (launch State.powerOn [(0, [0xAA#8]), (0x0800, [0x83#8, 5#8])]).isSome = true ∧
      [((0 : Nat), [0xAA#8]), (0x0800, [0x83#8, 5#8])] = [(0, [0xAA#8])] ++ [(0x0800, [0x83#8, 5#8])] ∧
      0x0800 + 1 ≠ State.powerOn.cfg.iawBase.toNat ∧ 0x0800 + 1 ≠ State.powerOn.cfg.iawBase.toNat + 1 := by
  decide +kernel

/-- The reset machine with a stop address. -/
def stopAt (a : Addr) : State := { State.reset with cfg := { Config.default with stop := some a } }

theorem witness_RunEndsAtStopOrFault :
    (stopAt 0x0800#14).fault = none ∧ (stopAt 0x0800#14).cfg.stop = some 0x0800#14 ∧
      activeIaw (stopAt 0x0800#14) = .ok 0x0800#14 ∧ activeIaw (stopAt 0x0802#14) ≠ .ok 0x0802#14 ∧
      State.reset.cfg.stop = none := by decide +kernel
theorem witness_BranchToItselfNeverEnds :
    Memory.wf (withCmp (at0800 0x4800) .low).mem = true ∧ (withCmp (at0800 0x4800) .low).fault = none ∧
      fetch (withCmp (at0800 0x4800) .low) = .ok ⟨0x0800#14, 0x4800#16⟩ ∧
      decode (at0800 0x4800).cfg 0x4800#16 = .ok (.brl 0x0800#14) ∧ branchTarget 0x0800#14 0x0800#14 = 0x0800#14 := by
  decide +kernel
theorem witness_DumpShowsActiveSlot : activeIaw State.reset = .ok 0x0800#14 ∧ State.reset.sp.toNat = (0 : Fin 8).val := by
  decide +kernel

end Sys2Proof.Tests
end

section
/-! The address notation (00_scope.md R10): what the rendering spells, digit by digit, and how the parser answers a text
of seven characters, check by check. -/

namespace Sys2Proof.Machine

theorem octalDigit_digitChar : ∀ {d : Nat}, d < 8 → octalDigit (digitChar d) = some d := by decide

theorem octalDigit_of_not_octal {c : Char} (h : ¬ ('0' ≤ c ∧ c ≤ '7')) : octalDigit c = none := if_neg h

/-- Two octal digits spell a page and three a location, the highest first. -/
theorem renderAddress_eq (a : Addr) :
    renderAddress a =
      ['P', digitChar (a.pageOf.toNat / 8 % 8), digitChar (a.pageOf.toNat % 8), '-',
        digitChar (a.locationOf.toNat / 8 / 8 % 8), digitChar (a.locationOf.toNat / 8 % 8),
        digitChar (a.locationOf.toNat % 8)] := rfl

theorem parseAddress_of_digits {c1 c2 c4 c5 c6 : Char} {p1 p0 l2 l1 l0 : Nat} (h1 : octalDigit c1 = some p1)
    (h2 : octalDigit c2 = some p0) (h4 : octalDigit c4 = some l2) (h5 : octalDigit c5 = some l1)
    (h6 : octalDigit c6 = some l0) (hl : l2 * 64 + l1 * 8 + l0 < 256) :
    parseAddress ['P', c1, c2, '-', c4, c5, c6] =
      .ok (addrOfPage (BitVec.ofNat 6 (p1 * 8 + p0)) (BitVec.ofNat 8 (l2 * 64 + l1 * 8 + l0))) := by
  simp [parseAddress, h1, h2, h4, h5, h6, Nat.not_le.mpr hl]

theorem parseAddress_renderAddress (a : Addr) : parseAddress (renderAddress a) = .ok a := by
  have hp : a.pageOf.toNat < 64 := a.pageOf.isLt
  have hl : a.locationOf.toNat < 256 := a.locationOf.isLt
  have page : a.pageOf.toNat / 8 % 8 * 8 + a.pageOf.toNat % 8 = a.pageOf.toNat := by omega
  have location : a.locationOf.toNat / 8 / 8 % 8 * 64 + a.locationOf.toNat / 8 % 8 * 8 + a.locationOf.toNat % 8 =
      a.locationOf.toNat := by omega
  have digit (n : Nat) : octalDigit (digitChar (n % 8)) = some (n % 8) :=
    octalDigit_digitChar (Nat.mod_lt n (by decide))
  rw [renderAddress_eq, parseAddress_of_digits (digit _) (digit _) (digit _) (digit _) (digit _) (by omega), page,
    location, BitVec.ofNat_toNat, BitVec.ofNat_toNat, BitVec.setWidth_eq, BitVec.setWidth_eq, addrOfPage_eta]

theorem parseAddress_of_length_ne {t : Text} (h : t.length ≠ 7) : parseAddress t = .error .length := by
  unfold parseAddress
  split
  · exact absurd rfl h
  · rfl

theorem parseAddress_of_not_page {t : Text} (hlen : t.length = 7) (h : t.head? ≠ some 'P') :
    parseAddress t = .error .page := by
  match t, hlen with
  | [_, _, _, _, _, _, _], _ => exact if_pos fun hc => h (congrArg some hc)

theorem parseAddress_of_not_dash {t : Text} (hlen : t.length = 7) (hpage : t.head? = some 'P') (h : t[3]? ≠ some '-') :
    parseAddress t = .error .dash := by
  match t, hlen with
  | [_, _, _, _, _, _, _], _ =>
    obtain rfl := Option.some.inj hpage
    exact if_pos fun hc => h (congrArg some hc)

/-- One character that is no octal digit among the five makes the whole text malformed. -/
theorem parseAddress_of_octalDigit_none {c c1 c2 c4 c5 c6 : Char} (hmem : c ∈ [c1, c2, c4, c5, c6])
    (hc : octalDigit c = none) : parseAddress ['P', c1, c2, '-', c4, c5, c6] = .error .digit := by
  simp only [parseAddress, ne_eq, not_true_eq_false, if_false]
  split
  next h1 h2 h4 h5 h6 =>
    have hdigits : ∀ d ∈ [c1, c2, c4, c5, c6], octalDigit d ≠ none := by simp [h1, h2, h4, h5, h6]
    exact absurd hc (hdigits c hmem)
  next => rfl

theorem parseAddress_of_not_octal {t : Text} {k : Nat} {c : Char} (hlen : t.length = 7) (hpage : t.head? = some 'P')
    (hdash : t[3]? = some '-') (h0 : k ≠ 0) (h3 : k ≠ 3) (hk : t[k]? = some c) (hc : ¬ ('0' ≤ c ∧ c ≤ '7')) :
    parseAddress t = .error .digit := by
  match t, hlen with
  | [_, c1, c2, _, c4, c5, c6], _ =>
    obtain rfl := Option.some.inj hpage
    obtain rfl := Option.some.inj hdash
    have hmem : c ∈ [c1, c2, c4, c5, c6] := by
      match k with
      | 0 => exact absurd rfl h0
      | 3 => exact absurd rfl h3
      | 1 | 2 | 4 | 5 | 6 => simp [← Option.some.inj hk]
      | _ + 7 => simp at hk
    exact parseAddress_of_octalDigit_none hmem (octalDigit_of_not_octal hc)

/-- Settles O10: the digits of the rendering are read back one by one, and each of R10's four checks refuses a text that
passes the checks before it. -/
theorem addressTextRoundTrip : Obligations.AddressTextRoundTrip :=
  ⟨parseAddress_renderAddress, fun _ => parseAddress_of_length_ne, fun _ => parseAddress_of_not_page,
    fun _ => parseAddress_of_not_dash, fun _ _ _ => parseAddress_of_not_octal⟩

end Sys2Proof.Machine
end

section
/-! State and IAW (10_state.md): what the execute phase of each instruction leaves unchanged, and the one address that
every completed instruction stores in the active slot. -/

namespace Sys2Proof.Machine

/-! ### The slot address -/

/-- The slot address is taken modulo 16384 (R21). -/
theorem slotAddr_toNat (s : State) : (slotAddr s).toNat = (s.cfg.iawBase.toNat + 2 * s.sp.toNat) % 16384 := by
  have hsp : s.sp.toNat < 32 := s.sp.isLt
  simp only [slotAddr, BitVec.toNat_add, BitVec.toNat_mul, BitVec.toNat_ofNat, BitVec.toNat_setWidth]
  omega

/-- Settles O16: the highest slot, `SP = 31`, still ends at or below the last byte of memory. -/
theorem slotAddressInsideMemory : Obligations.SlotAddressInsideMemory := by
  intro s hfit
  have hsp : s.sp.toNat < 32 := s.sp.isLt
  rw [slotAddr_toNat]
  omega

/-! ### What the execute phase leaves unchanged -/

/-- What instruction `i` may not change: the stack pointer, the fault record and the parameters in any case, and each
register that `i` does not name as its own to write (R14, R15, R16, R19, R25). -/
structure RegisterFrame (i : Instr) (s t : State) : Prop where
  control : SameControl s t
  cmp : (∀ r n, i ≠ .cpx r n) → t.cmp = s.cmp
  accAndTapes : (∀ ch fn, i ≠ .ioc ch fn) → t.acc = s.acc ∧ SameTapes s t
  cell : ∀ q, (∀ n, i ≠ .ldx q n) → (∀ m p, i ≠ .sta q m p) → t.cell q = s.cell q

theorem RegisterFrame.refl (i : Instr) (s : State) : RegisterFrame i s s :=
  ⟨⟨rfl, rfl, rfl⟩, fun _ => rfl, fun _ => ⟨rfl, rfl, rfl, rfl⟩, fun _ _ _ => rfl⟩

/-- The frame speaks of no byte of memory. -/
theorem RegisterFrame.withMem {i : Instr} {s u : State} (h : RegisterFrame i s u) (m : Memory) :
    RegisterFrame i s { u with mem := m } :=
  ⟨h.control, h.cmp, h.accAndTapes, h.cell⟩

theorem registerFrame_ldx (s : State) (r : BitVec 3) (n : Byte) : RegisterFrame (.ldx r n) s (s.setX r n) where
  control := ⟨rfl, rfl, rfl⟩
  cmp _ := rfl
  accAndTapes _ := ⟨rfl, rfl, rfl, rfl⟩
  cell q hldx _ := by
    have hq : q ≠ r := by rintro rfl; exact hldx n rfl
    exact State.setX_cell_other s n hq

theorem registerFrame_cpx (s : State) (r : BitVec 3) (n : Byte) (v : Cmp) :
    RegisterFrame (.cpx r n) s (s.setCmp v) where
  control := ⟨rfl, rfl, rfl⟩
  cmp hcpx := absurd rfl (hcpx r n)
  accAndTapes _ := ⟨rfl, rfl, rfl, rfl⟩
  cell _ _ _ := rfl

theorem registerFrame_sta (s : State) (r : BitVec 3) (code : BitVec 2) (p : BitVec 6) (m : Memory) (mode : IndexMode)
    (x : Byte) : RegisterFrame (.sta r code p) s (postModify { s with mem := m } mode r x) := by
  obtain ⟨-, hacc, hcmp, hsp, htape, hcur1, hcur2, hfault, hcfg, hcell⟩ := postModify_frame { s with mem := m } mode r x
  refine ⟨⟨hsp, hfault, hcfg⟩, fun _ => hcmp, fun _ => ⟨hacc, htape, hcur1, hcur2⟩, fun q _ hsta => hcell q ?_⟩
  rintro rfl
  exact hsta code p rfl

theorem registerFrame_ioc (s : State) (ch : BitVec 3) (fn : Byte) (tape : TapeId) :
    RegisterFrame (.ioc ch fn) s (transferByte tape { s with curTape := some tape }) where
  control := by simp [SameControl, transferByte]
  cmp _ := by simp [transferByte]
  accAndTapes hioc := absurd rfl (hioc ch fn)
  cell q _ _ := by simp only [transferByte, State.advanceTape_cell, State.setAcc_cell]; rfl

/-! ### The address every completed instruction stores -/

/-- Where a completed instruction may send the engine: to the next word, or, with `CMP` Low, into its own section. -/
def IsSuccessor (s : State) (c : Fetched) (a : Addr) : Prop :=
  a = c.iaw.nextInstruction ∨ (s.cmp = .low ∧ a.sectionOf = c.iaw.sectionOf)

theorem branchTarget_sectionOf (iaw embedded : Addr) : (branchTarget iaw embedded).sectionOf = iaw.sectionOf :=
  (Addr.withSection_fields embedded iaw.sectionOf).1

/-- An advance without a taken branch is the store of the next word's address (R65 phase 4). -/
theorem writeAddrWord_of_advance {s u t : State} {c : Fetched} (h : advance s c ⟨u, false⟩ = .next t) :
    writeAddrWord u (some c.iaw) (slotAddr s).toNat c.iaw.nextInstruction = .ok t := by
  simp only [advance, Bool.false_eq_true, if_false] at h
  split at h
  · cases h
  · rename_i hv; cases h; exact hv

/-- The two ways to a next state: an execute phase within the frame and the advance, or BRL taken, with `CMP` Low. -/
theorem exec_next_advance_or_branch {i : Instr} {s t : State} (h : exec i s = .next t) : ∃ c, fetch s = .ok c ∧
    ((∃ u, RegisterFrame i s u ∧ advance s c ⟨u, false⟩ = .next t) ∨
     (s.cmp = .low ∧ ∃ target,
        writeAddrWord s (some c.iaw) (slotAddr s).toNat (branchTarget c.iaw target) = .ok t)) := by
  obtain ⟨c, hc, hcases⟩ := exec_next_cases h
  refine ⟨c, hc, ?_⟩
  rcases hcases with ⟨r, n, rfl, ha⟩ | ⟨r, n, v, rfl, -, ha⟩ | ⟨r, code, p, mode, x, v, rfl, -, -, -, -, -, ha⟩ |
    ⟨ch, fn, tape, rfl, -, -, -, ha⟩ | ⟨target, rfl, hlow, hw⟩ | ⟨target, rfl, -, ha⟩
  · exact .inl ⟨_, registerFrame_ldx s r n, ha⟩
  · exact .inl ⟨_, registerFrame_cpx s r n _, ha⟩
  · exact .inl ⟨_, registerFrame_sta s r code p _ mode x, ha⟩
  · exact .inl ⟨_, registerFrame_ioc s ch fn tape, ha⟩
  · exact .inr ⟨hlow, target, hw⟩
  · exact .inl ⟨s, .refl _ s, ha⟩

/-- Every instruction that answers a next state ends in one store to the active slot: of a successor's address, in a state
its execute phase has kept in the frame. -/
theorem exec_next_stores_successor {i : Instr} {s t : State} (h : exec i s = .next t) :
    ∃ c u a, fetch s = .ok c ∧ RegisterFrame i s u ∧ IsSuccessor s c a ∧
      writeAddrWord u (some c.iaw) (slotAddr s).toNat a = .ok t := by
  obtain ⟨c, hc, ⟨u, hu, ha⟩ | ⟨hlow, target, hw⟩⟩ := exec_next_advance_or_branch h
  · exact ⟨c, u, _, hc, hu, .inl rfl, writeAddrWord_of_advance ha⟩
  · exact ⟨c, s, _, hc, .refl i s, .inr ⟨hlow, branchTarget_sectionOf c.iaw target⟩, hw⟩

/-- Any instruction keeps its frame, and leaves a successor's address readable in the active slot. -/
theorem exec_next_frame_and_iaw {i : Instr} {s t : State} (h : exec i s = .next t) :
    RegisterFrame i s t ∧ ∃ c a, fetch s = .ok c ∧ IsSuccessor s c a ∧ activeIaw t = .ok a := by
  obtain ⟨c, u, a, hc, hframe, ha, hw⟩ := exec_next_stores_successor h
  obtain ⟨hsp, -, hcfg⟩ := hframe.control
  obtain ⟨ht, hiaw, -⟩ := writeSlot_ok hcfg hsp hw
  exact ⟨ht ▸ hframe.withMem t.mem, c, a, hc, ha, hiaw⟩

/-! ### The obligations -/

/-- Settles O23: the step ran an instruction with no fault recorded, and every instruction keeps its frame. -/
theorem stepKeepsStackPointerAndParameters : Obligations.StepKeepsStackPointerAndParameters := by
  intro s t h
  obtain ⟨hnone, i, hi⟩ := step_next h
  obtain ⟨hsp, hfault, hcfg⟩ := (exec_next_frame_and_iaw hi).1.control
  exact ⟨hsp, hcfg, hfault.trans hnone⟩

/-- Settles O24: the address the step stored in the active slot reads back. -/
theorem iawReadableAfterEveryStep : Obligations.IawReadableAfterEveryStep := by
  intro s t h
  obtain ⟨-, i, hi⟩ := step_next h
  obtain ⟨-, c, a, -, -, hiaw⟩ := exec_next_frame_and_iaw hi
  exact ⟨a, hiaw⟩

/-- Settles O28: the frame of every instruction, without its clause on the control fields. -/
theorem onlyNamedInstructionsWriteRegisters : Obligations.OnlyNamedInstructionsWriteRegisters := by
  intro i s t h
  obtain ⟨-, hcmp, hio, hcell⟩ := (exec_next_frame_and_iaw h).1
  exact ⟨hcmp, hio, hcell⟩

/-- Settles O30: the address stored by the instruction is a successor of the one fetched. -/
theorem stepsStayInSectionOrAdvance : Obligations.StepsStayInSectionOrAdvance := by
  intro s t c hc h
  obtain ⟨-, i, hi⟩ := step_next h
  obtain ⟨-, d, a, hd, ha, hiaw⟩ := exec_next_frame_and_iaw hi
  obtain rfl : c = d := Except.ok.inj (hc.symm.trans hd)
  exact ⟨a, hiaw, ha⟩

end Sys2Proof.Machine
end

section
/-! Addresses (20_memory.md R28 to R30): the value of a constructed address, the round trip with the linear form, and
the replacement of one field. -/

namespace Sys2Proof

/-- Bits put side by side, as a number: the left part counts in units of the right part's range. -/
theorem append_toNat {m n : Nat} (x : BitVec m) (y : BitVec n) : (x ++ y).toNat = x.toNat * 2 ^ n + y.toNat := by
  rw [BitVec.toNat_append, ← Nat.shiftLeft_add_eq_or_of_lt y.isLt, Nat.shiftLeft_eq]

theorem addrOfPage_toNat (p : BitVec 6) (loc : Byte) : (addrOfPage p loc).toNat = p.toNat * 256 + loc.toNat :=
  append_toNat p loc

@[simp] theorem addrOfSection_pageOf (s l : BitVec 3) (loc : Byte) : (addrOfSection s l loc).pageOf = s ++ l :=
  addrOfPage_pageOf _ _

theorem addrOfSection_toNat (s l : BitVec 3) (loc : Byte) :
    (addrOfSection s l loc).toNat = s.toNat * 2048 + l.toNat * 256 + loc.toNat := by
  rw [addrOfSection, addrOfPage_toNat, append_toNat]
  omega

theorem addrOfSection_pageOf_toNat (s l : BitVec 3) (loc : Byte) :
    (addrOfSection s l loc).pageOf.toNat = s.toNat * 8 + l.toNat := by
  rw [addrOfSection_pageOf]
  exact append_toNat s l

theorem addrOfLinear_of_lt {v : Nat} (h : v < 16384) : addrOfLinear v = some (BitVec.ofNat 14 v) := if_pos h

theorem addrOfLinear_of_le {v : Nat} (h : 16384 ≤ v) : addrOfLinear v = none := if_neg (Nat.not_lt.mpr h)

@[simp] theorem addrOfLinear_toNat (a : Addr) : addrOfLinear a.toNat = some a := by
  rw [addrOfLinear_of_lt a.isLt, BitVec.ofNat_toNat, BitVec.setWidth_eq]

theorem Addr.withLevel_fields (a : Addr) (l : BitVec 3) :
    (a.withLevel l).levelOf = l ∧ (a.withLevel l).sectionOf = a.sectionOf ∧
      (a.withLevel l).locationOf = a.locationOf := by
  simp [Addr.withLevel]

theorem Addr.withPage_fields (a : Addr) (p : BitVec 6) :
    (a.withPage p).pageOf = p ∧ (a.withPage p).locationOf = a.locationOf := by
  simp [Addr.withPage]

theorem Addr.withLocation_fields (a : Addr) (loc : Byte) :
    (a.withLocation loc).locationOf = loc ∧ (a.withLocation loc).pageOf = a.pageOf := by
  simp [Addr.withLocation]

/-- Settles O8, form by form. -/
theorem addressConstructionAndAccess : Obligations.AddressConstructionAndAccess :=
  ⟨fun s l loc => ⟨addrOfSection_toNat s l loc, addrOfSection_sectionOf s l loc, addrOfSection_levelOf s l loc,
      addrOfSection_pageOf_toNat s l loc, addrOfSection_locationOf s l loc⟩,
    fun p loc => ⟨addrOfPage_toNat p loc, addrOfPage_pageOf p loc, addrOfPage_locationOf p loc⟩,
    fun _ hv => ⟨_, addrOfLinear_of_lt hv, Nat.mod_eq_of_lt hv⟩, fun _ => addrOfLinear_of_le,
    fun a => ⟨addrOfLinear_toNat a, addrOfPage_eta a, addrOfSection_eta a⟩, Addr.withSection_fields,
    Addr.withLevel_fields, Addr.withPage_fields, Addr.withLocation_fields⟩

/-- Settles O9: the sum of 14-bit words is taken modulo 16384. -/
theorem nextInstructionWraps : Obligations.NextInstructionWraps := fun a => BitVec.toNat_add a 2#14

end Sys2Proof
end

section
/-! Memory accesses (20_memory.md R31 to R35): when the port faults, why canonical memory is determined by what it
answers, and the two-byte accesses with their faults in order. -/

namespace Sys2Proof.Machine

/-! ### The memory port -/

theorem memRead_of_unwritten {s : State} {a : Nat} (iaw : Option Addr) (hlt : a < 16384)
    (hnone : Memory.read s.mem a = none) : memRead s iaw a = .error (.unwrittenMemory iaw a) := by
  simp only [memRead, memSize, hlt, hnone, if_true]

theorem memRead_of_le (s : State) (iaw : Option Addr) {a : Nat} (hle : 16384 ≤ a) :
    memRead s iaw a = .error (.boundsViolation iaw a) := if_neg (Nat.not_lt.mpr hle)

theorem memWrite_of_le (s : State) (iaw : Option Addr) {a : Nat} (v : Byte) (hle : 16384 ≤ a) :
    memWrite s iaw a v = .error (.boundsViolation iaw a) := if_neg (Nat.not_lt.mpr hle)

/-- A read faults for one of two reasons: the cell is unwritten, or it lies outside memory. -/
theorem memRead_error {s : State} {iaw : Option Addr} {a : Nat} {f : Fault} (h : memRead s iaw a = .error f) :
    f = .unwrittenMemory iaw a ∨ (16384 ≤ a ∧ f = .boundsViolation iaw a) := by
  rcases Nat.lt_or_ge a 16384 with hlt | hle
  · cases hread : Memory.read s.mem a with
    | none =>
      rw [memRead_of_unwritten iaw hlt hread] at h
      exact .inl (Except.error.inj h).symm
    | some b =>
      rw [memRead_ok.mpr ⟨hlt, hread⟩] at h
      cases h
  · rw [memRead_of_le s iaw hle] at h
    exact .inr ⟨hle, (Except.error.inj h).symm⟩

theorem memRead_write_other (s : State) (iaw : Option Addr) {a b : Nat} (v : Byte) (h : b ≠ a) :
    memRead { s with mem := Memory.write s.mem a v } iaw b = memRead s iaw b := by
  simp only [memRead, Memory.read_write_other s.mem v h]

/-- Settles O11: inside memory by the laws of one cell, outside by the bounds check. -/
theorem memoryPortRules : Obligations.MemoryPortRules := by
  intro s iaw a v
  constructor
  · intro hlt
    exact ⟨fun b hb => memRead_ok.mpr ⟨hlt, hb⟩, memRead_of_unwritten iaw hlt, _, memWrite_of_lt s iaw v hlt,
      memRead_ok.mpr ⟨hlt, Memory.read_write_same s.mem a v⟩, fun b hb => memRead_write_other s iaw v hb, rfl⟩
  · intro hle
    exact ⟨memRead_of_le s iaw hle, memWrite_of_le s iaw v hle⟩

/-! ### Canonical memory -/

@[simp] theorem Memory.read_cons_same (c : Host.Cell) (m : Memory) : Memory.read (c :: m) c.1 = some c.2 := if_pos rfl

theorem Memory.read_cons_other {c : Host.Cell} {a : Nat} (m : Memory) (h : c.1 ≠ a) :
    Memory.read (c :: m) a = Memory.read m a := if_neg h

/-- An address below every listed cell is unwritten. -/
theorem Memory.read_of_lt {m : Memory} {a : Nat} (h : ∀ d ∈ m, a < d.1) : Memory.read m a = none := by
  induction m with
  | nil => rfl
  | cons c rest ih =>
    obtain ⟨hc, hrest⟩ := List.forall_mem_cons.mp h
    rw [Memory.read_cons_other rest (by omega), ih hrest]

/-- The lowest written cell of canonical memory: no address below it is written. -/
theorem Memory.head_le_of_read {c : Host.Cell} {m : Memory} {a : Nat} {b : Byte} (hw : Memory.wf (c :: m) = true)
    (h : Memory.read (c :: m) a = some b) : c.1 ≤ a := by
  by_contra hlt
  obtain ⟨-, -, habove⟩ := (Memory.wf_cons c m).mp hw
  have hnone : Memory.read (c :: m) a = none :=
    Memory.read_of_lt (List.forall_mem_cons.mpr ⟨by omega, fun d hd => by have := habove d hd; omega⟩)
  rw [hnone] at h
  cases h

/-- Canonical memory read without its lowest cell: nothing at that cell, elsewhere as before. -/
theorem Memory.read_tail {c : Host.Cell} {m : Memory} (hw : Memory.wf (c :: m) = true) (a : Nat) :
    Memory.read m a = if c.1 = a then none else Memory.read (c :: m) a := by
  split
  · rename_i h
    obtain ⟨-, -, habove⟩ := (Memory.wf_cons c m).mp hw
    exact Memory.read_of_lt (h ▸ habove)
  · rename_i h
    exact (Memory.read_cons_other m h).symm

/-- Settles O12, by induction on the two lists: each one's lowest cell is written in the other, so the two are one cell,
and the rests read alike. -/
theorem canonicalMemoryIsUnique : Obligations.CanonicalMemoryIsUnique := by
  intro m
  induction m with
  | nil =>
    intro n _ _ h
    cases n with
    | nil => rfl
    | cons d n => simpa [Memory.read] using h d.1
  | cons c m ih =>
    intro n hm hn h
    cases n with
    | nil => simpa [Memory.read] using h c.1
    | cons d n =>
      have haddr : c.1 = d.1 := Nat.le_antisymm
        (Memory.head_le_of_read hm ((h d.1).trans (Memory.read_cons_same d n)))
        (Memory.head_le_of_read hn ((h c.1).symm.trans (Memory.read_cons_same c m)))
      have hbyte : c.2 = d.2 := by
        have hread := h c.1
        rw [Memory.read_cons_same, haddr, Memory.read_cons_same] at hread
        exact Option.some.inj hread
      have htail : m = n := by
        obtain ⟨-, hmtail, -⟩ := (Memory.wf_cons c m).mp hm
        obtain ⟨-, hntail, -⟩ := (Memory.wf_cons d n).mp hn
        refine ih n hmtail hntail fun a => ?_
        rw [Memory.read_tail hm, Memory.read_tail hn, haddr, h]
      rw [Prod.ext haddr hbyte, htail]

/-! ### Instruction words -/

theorem fetchWord_of_first_unwritten {s : State} {a : Addr} (h : Memory.read s.mem a.toNat = none) :
    fetchWord s a = .error (.unwrittenMemory (some a) a.toNat) := by
  simp only [fetchWord, memRead_of_unwritten (some a) a.isLt h]

/-- With its first byte read, a fetch faults as the read of the second byte does. -/
theorem fetchWord_of_second_error {s : State} {a : Addr} {b : Byte} {f : Fault} (h : Memory.read s.mem a.toNat = some b)
    (hf : memRead s (some a) (a.toNat + 1) = .error f) : fetchWord s a = .error f := by
  simp only [fetchWord, memRead_ok.mpr ⟨a.isLt, h⟩, hf]

/-- Settles O13: the first byte is read, then the second, whose address does not wrap. -/
theorem fetchWordRules : Obligations.FetchWordRules := by
  intro s a horder
  refine ⟨fetchWord_of_first_unwritten, fun left hleft => ?_⟩
  refine ⟨fun htop => ?_, fun hlt hnone => ?_, fun right hlt hright => ?_⟩
  · have hnext : a.toNat + 1 = 0x4000 := by omega
    rw [← hnext]
    exact fetchWord_of_second_error hleft (memRead_of_le s _ (by omega))
  · exact fetchWord_of_second_error hleft (memRead_of_unwritten _ (by omega) hnone)
  · rw [fetchWord_of_bytes (Nat.succ_lt_succ hlt) hleft hright, horder]
    rfl

/-! ### Address words -/

theorem readAddrWord_of_first_error {s : State} {slot : Nat} {f : Fault} (hf : memRead s none slot = .error f) :
    readAddrWord s slot = .error f := by
  simp only [readAddrWord, hf]

theorem readAddrWord_of_second_error {s : State} {slot : Nat} {b : Byte} {f : Fault} (h : memRead s none slot = .ok b)
    (hf : memRead s none (slot + 1) = .error f) : readAddrWord s slot = .error f := by
  simp only [readAddrWord, h, hf]

/-- Under `page_first`, two bytes read are a page byte, whose spare bits are checked, and a location. -/
theorem readAddrWord_pageFirst {s : State} {slot : Nat} {p loc : Byte} (horder : s.cfg.addrWordOrder = .pageFirst)
    (hp : memRead s none slot = .ok p) (hloc : memRead s none (slot + 1) = .ok loc) :
    readAddrWord s slot = if p.extractLsb' 6 2 = 0#2 then .ok (addrOfPage (p.extractLsb' 0 6) loc)
      else .error (.iawNonCanonical slot p) := by
  simp only [readAddrWord, hp, hloc, horder, addrWordParts]

theorem spareBits_zero_iff : ∀ p : Byte, p.extractLsb' 6 2 = 0#2 ↔ p.toNat < 64 := by decide

/-- Settles O14: the page byte is read, then the location, then the spare bits are checked. -/
theorem readAddrWordRules : Obligations.ReadAddrWordRules := by
  intro s slot horder hslot
  have hlt : slot < 16384 := by omega
  refine ⟨fun hnone => readAddrWord_of_first_error (memRead_of_unwritten _ hlt hnone), fun p hp => ?_⟩
  have hpage : memRead s none slot = .ok p := memRead_ok.mpr ⟨hlt, hp⟩
  refine ⟨fun hnone => readAddrWord_of_second_error hpage (memRead_of_unwritten _ hslot hnone), fun loc hloc => ?_⟩
  rw [readAddrWord_pageFirst horder hpage (memRead_ok.mpr ⟨hslot, hloc⟩)]
  refine ⟨fun hspare => if_neg ?_, fun hcanonical => ⟨_, if_pos ((spareBits_zero_iff p).mpr hcanonical), ?_⟩⟩
  · rw [spareBits_zero_iff]
    omega
  · rw [addrOfPage_toNat, BitVec.extractLsb'_toNat, Nat.shiftRight_zero, Nat.mod_eq_of_lt hcanonical]

/-- `WriteAddrWord` writes the two bytes of its address word and no other. -/
theorem writeAddrWord_bytes {s t : State} {iaw : Option Addr} {slot : Nat} {a : Addr}
    (h : writeAddrWord s iaw slot a = .ok t) :
    Memory.read t.mem slot = some (addrWordBytes s.cfg.addrWordOrder a).1 ∧
      Memory.read t.mem (slot + 1) = some (addrWordBytes s.cfg.addrWordOrder a).2 ∧
      SameMemoryOutside (fun b => b = slot ∨ b = slot + 1) s t := by
  obtain ⟨-, rfl⟩ := writeAddrWord_ok h
  refine ⟨?_, Memory.read_write_same _ _ _, fun b hb => ?_⟩
  · exact (Memory.read_write_other _ _ (by omega)).trans (Memory.read_write_same _ _ _)
  · obtain ⟨h0, h1⟩ := not_or.mp hb
    exact (Memory.read_write_other _ _ h1).trans (Memory.read_write_other _ _ h0)

/-- Settles O15: the two bytes written are those from which a read composes the address again. -/
theorem writeAddrWordReadsBack : Obligations.WriteAddrWordReadsBack := by
  intro s iaw slot a hslot
  have hw := writeAddrWord_of_lt s iaw a hslot
  obtain ⟨h0, h1, hframe⟩ := writeAddrWord_bytes hw
  refine ⟨_, hw, readAddrWord_of_bytes hslot h0 h1, fun horder => ?_,
    fun b hb0 hb1 => hframe b (not_or.mpr ⟨hb0, hb1⟩), rfl⟩
  exact ⟨h0.trans (by rw [horder]; rfl), h1.trans (by rw [horder]; rfl)⟩

end Sys2Proof.Machine
end

section
/-! Memory under the step (20_memory.md R31, R36 to R44): what an instruction stores, what the next fetch sees
of it, and the faults that a state with the invariant rules out. -/

namespace Sys2Proof.Machine

/-! ### What an instruction stores -/

/-- The advance stores into the active slot alone (R65 phase 4). -/
theorem advance_sameMemory {s u t : State} {c : Fetched} (hu : u.mem = s.mem) (h : advance s c ⟨u, false⟩ = .next t) :
    SameMemoryOutside (SlotByte s) s t := by
  obtain ⟨-, -, hframe⟩ := writeAddrWord_bytes (writeAddrWord_of_advance h)
  exact fun b hb => (hframe b hb).trans (by rw [hu])

theorem transferByte_mem (tape : TapeId) (s : State) : (transferByte tape s).mem = s.mem := by simp [transferByte]

/-- Everything STA does to memory: the accumulator's byte at the target, which is off the active slot, and then the next
word's address in the slot (R75, R102). -/
theorem sta_next_memory {s t : State} {r : BitVec 3} {code : BitVec 2} {p : BitVec 6}
    (h : exec (.sta r code p) s = .next t) :
    ∃ c x v, fetch s = .ok c ∧ s.cell r = some x ∧ s.acc = some v ∧ ¬ SlotByte s (indirectAddr p x).toNat ∧
      activeIaw t = .ok c.iaw.nextInstruction ∧
      ∀ b, ¬ SlotByte s b → Memory.read t.mem b = Memory.read (Memory.write s.mem (indirectAddr p x).toNat v) b := by
  obtain ⟨c, hc, hcases⟩ := exec_next_cases h
  obtain ⟨_, _, hi, -⟩ | ⟨_, _, _, hi, -⟩ | ⟨_, _, _, mode, x, v, hi, -, -, hx, hv, hoff, ha⟩ | ⟨_, _, _, hi, -⟩ |
    ⟨_, hi, -⟩ | ⟨_, hi, -⟩ := hcases <;> cases hi
  obtain ⟨hmem, -, -, hsp, -, -, -, -, hcfg, -⟩ :=
    postModify_frame { s with mem := Memory.write s.mem (indirectAddr p x).toNat v } mode r x
  obtain ⟨-, hiaw, hread, -⟩ := advance_next hcfg hsp ha
  rw [hmem] at hread
  exact ⟨c, x, v, hc, hx, hv, by simpa [inActiveSlot, SlotByte] using hoff, hiaw, hread⟩

/-- An instruction other than STA stores into the active slot alone. -/
theorem exec_next_sameMemory {i : Instr} {s t : State} (h : exec i s = .next t) (hi : ∀ r m p, i ≠ .sta r m p) :
    SameMemoryOutside (SlotByte s) s t := by
  obtain ⟨c, -, hcases⟩ := exec_next_cases h
  rcases hcases with ⟨r, n, -, ha⟩ | ⟨r, n, v, -, -, ha⟩ | ⟨r, m, p, _, _, _, hsta, -⟩ |
    ⟨ch, fn, tape, -, -, -, -, ha⟩ | ⟨target, -, -, hw⟩ | ⟨target, -, -, ha⟩
  · exact advance_sameMemory (s.setX_mem r n) ha
  · exact advance_sameMemory (s.setCmp_mem _) ha
  · exact absurd hsta (hi r m p)
  · exact advance_sameMemory (transferByte_mem tape { s with curTape := some tape }) ha
  · obtain ⟨-, -, hframe⟩ := writeAddrWord_bytes hw
    exact hframe
  · exact advance_sameMemory rfl ha

/-- Settles O29: STA's target is computed from the register's value before the step. -/
theorem onlyStaWritesMemory : Obligations.OnlyStaWritesMemory := by
  intro i s t h
  refine ⟨exec_next_sameMemory h, ?_⟩
  rintro r m p x rfl hx b hb
  obtain ⟨hslot, htarget⟩ := not_or.mp hb
  obtain ⟨-, y, v, -, hy, -, -, -, hmem⟩ := sta_next_memory h
  obtain rfl : x = y := Option.some.inj (hx.symm.trans hy)
  rw [hmem b hslot, Memory.read_write_other _ _ htarget]

/-- The byte STA stored is in memory afterwards: the store of the IAW does not reach it. -/
theorem sta_next_target {s t : State} {r : BitVec 3} {code : BitVec 2} {p : BitVec 6} {x v : Byte}
    (h : exec (.sta r code p) s = .next t) (hx : s.cell r = some x) (hv : s.acc = some v) :
    Memory.read t.mem (indirectAddr p x).toNat = some v := by
  obtain ⟨-, y, w, -, hy, hw, hoff, -, hmem⟩ := sta_next_memory h
  obtain rfl : x = y := Option.some.inj (hx.symm.trans hy)
  obtain rfl : v = w := Option.some.inj (hv.symm.trans hw)
  rw [hmem _ hoff, Memory.read_write_same]

/-- Under `left_first` the halves of a fetched word are the bytes at its address and at the one after. -/
theorem fetchWord_leftFirst_ok {s : State} {a : Addr} {w : Word} (horder : s.cfg.wordOrder = .leftFirst)
    (h : fetchWord s a = .ok w) :
    ∃ left right : Byte, Memory.read s.mem a.toNat = some left ∧ Memory.read s.mem (a.toNat + 1) = some right ∧
      w.toNat / 256 = left.toNat ∧ w.toNat % 256 = right.toNat := by
  obtain ⟨-, left, right, hleft, hright, rfl⟩ := fetchWord_ok h
  have hw : (left ++ right : Word).toNat = left.toNat * 256 + right.toNat := append_toNat left right
  have hbyte : right.toNat < 256 := right.isLt
  rw [horder]
  refine ⟨left, right, hleft, hright, ?_, ?_⟩ <;> simp only [composeWord, hw] <;> omega

/-- Settles O41: the byte STA stored is still there when the next word is fetched. -/
theorem storeSeenByNextFetch : Obligations.StoreSeenByNextFetch := by
  intro s t c d r m p x v horder hc h hx hv hd
  obtain ⟨⟨-, -, hcfg⟩, -, -, -⟩ := (exec_next_frame_and_iaw h).1
  obtain ⟨c', -, -, hc', -, -, -, hiaw, -⟩ := sta_next_memory h
  obtain rfl : c = c' := Except.ok.inj (hc.symm.trans hc')
  obtain ⟨hdiaw, hword⟩ := fetch_ok hd
  have hnext : d.iaw = c.iaw.nextInstruction := Except.ok.inj (hdiaw.symm.trans hiaw)
  obtain ⟨left, right, hleft, hright, hhigh, hlow⟩ := fetchWord_leftFirst_ok (hcfg ▸ horder) hword
  have hstored := sta_next_target h hx hv
  rw [hnext] at hleft hright
  refine ⟨hnext, fun htarget => ?_, fun htarget => ?_⟩
  · rw [htarget, hleft] at hstored
    rw [hhigh, Option.some.inj hstored]
  · rw [htarget, hright] at hstored
    rw [hlow, Option.some.inj hstored]

/-! ### The faults of states with the invariant -/

/-- The faults that are left where `Inv` holds: no unwritten register, no spare bit set, no unwritten IAW slot, and no
address out of range but the second byte of a fetch at 0x3FFF (R31, R39, R84). -/
def Fault.OfInvariantState : Fault → Prop
  | .unwrittenRegister _ _ _ => False
  | .iawNonCanonical _ _ => False
  | .unwrittenMemory iaw _ => iaw ≠ none
  | .boundsViolation iaw a => iaw = some 0x3FFF#14 ∧ a = 0x4000
  | .unknownInstruction _ _ _ => True
  | .unimplementedInstruction _ _ _ => True
  | .unimplementedOperation _ _ _ _ => True
  | .reservedIndexingMode _ _ => True
  | .iawHazard _ _ _ => True
  | .noCurrentTape _ _ _ _ => True

/-- A fetch goes out of range only at 0x3FFF, with its second byte (R32). -/
theorem fetchWord_fault {s : State} {a : Addr} {f : Fault} (h : fetchWord s a = .error f) : f.OfInvariantState := by
  have ha : a.toNat < 16384 := a.isLt
  unfold fetchWord at h
  split at h
  next g hfirst =>
    cases h
    rcases memRead_error hfirst with rfl | ⟨hle, -⟩
    · exact Option.some_ne_none a
    · omega
  next _ first _ =>
    split at h
    next g hsecond =>
      cases h
      rcases memRead_error hsecond with rfl | ⟨hle, rfl⟩
      · exact Option.some_ne_none a
      · have htop : a.toNat = 0x3FFF := by omega
        obtain rfl : a = 0x3FFF#14 := BitVec.eq_of_toNat_eq htop
        exact ⟨rfl, rfl⟩
    next => cases h

theorem fetch_fault_of_inv {s : State} {f : Fault} (hs : Inv s) (h : fetch s = .error f) : f.OfInvariantState := by
  obtain ⟨a, ha⟩ := hs.iaw
  simp only [fetch, ha] at h
  split at h
  next g hword => cases h; exact fetchWord_fault hword
  next => cases h

theorem writeAddrWord_ne_error (s : State) (iaw : Option Addr) {slot : Nat} (a : Addr) (hslot : slot + 1 < memSize)
    (f : Fault) : writeAddrWord s iaw slot a ≠ .error f := by
  rw [writeAddrWord_of_lt s iaw a hslot]
  exact nofun

/-- The advance of a step that has read its IAW does not fault: the slot it stores to lies inside memory. -/
theorem advance_ne_fault {s : State} {c : Fetched} (hc : fetch s = .ok c) (e : Effect) (f : Fault) :
    advance s c e ≠ .fault f := by
  unfold advance
  split
  · exact nofun
  · split
    next g hg => exact absurd hg (writeAddrWord_ne_error _ _ _ (slot_lt_of_fetch hc) g)
    next => exact nofun

/-- An instruction's fault is one of its fetch or of its execute phase; the advance adds none. -/
theorem perform_fault_of_inv {s : State} {f : Fault} {body : Fetched → State → Except Fault Effect} (hs : Inv s)
    (hbody : ∀ c, fetch s = .ok c → body c s = .error f → f.OfInvariantState) (h : perform body s = .fault f) :
    f.OfInvariantState := by
  rcases perform_faults h with hf | ⟨c, hc, hb | ⟨e, -, ha⟩⟩
  · exact fetch_fault_of_inv hs hf
  · exact hbody c hc hb
  · exact absurd ha (advance_ne_fault hc e f)

theorem unimplementedBody_fault {s : State} {c : Fetched} {f : Fault} (h : unimplementedBody c s = .error f) :
    f.OfInvariantState := by
  cases h
  trivial

theorem unknownBody_fault {s : State} {c : Fetched} {f : Fault} (h : unknownBody c s = .error f) :
    f.OfInvariantState := by
  cases h
  trivial

theorem brlBody_ne_error {s : State} {c : Fetched} (hc : fetch s = .ok c) (a : Addr) (f : Fault) :
    brlBody a c s ≠ .error f := by
  unfold brlBody
  split
  next =>
    split
    next g hg => exact absurd hg (writeAddrWord_ne_error _ _ _ (slot_lt_of_fetch hc) g)
    next => exact nofun
  next => exact nofun
  next => exact nofun

theorem cpxBody_ne_error {s : State} (hs : Inv s) (r : BitVec 3) (n : Byte) (c : Fetched) (f : Fault) :
    cpxBody r n c s ≠ .error f := by
  obtain ⟨v, hv⟩ := Option.ne_none_iff_exists'.mp (hs.index r)
  simp [cpxBody, readX, hv]

/-- With the registers written, all that can stop STA's store is its target lying in the active slot. -/
theorem staStore_fault_of_inv {s : State} (hs : Inv s) {mode : IndexMode} {r : BitVec 3} {p : BitVec 6} {c : Fetched}
    {f : Fault} (h : staStore mode r p c s = .error f) : f.OfInvariantState := by
  obtain ⟨x, hx⟩ := Option.ne_none_iff_exists'.mp (hs.index r)
  obtain ⟨v, hv⟩ := Option.ne_none_iff_exists'.mp hs.acc
  cases hin : inActiveSlot s (indirectAddr p x) with
  | false =>
    rw [staStore_of c hx hv hin] at h
    cases h
  | true =>
    simp only [staStore, readX, readAcc, hx, hv, hin, if_true] at h
    cases h
    trivial

theorem staBody_fault_of_inv {s : State} (hs : Inv s) {r : BitVec 3} {code : BitVec 2} {p : BitVec 6} {c : Fetched}
    {f : Fault} (h : staBody r code p c s = .error f) : f.OfInvariantState := by
  unfold staBody at h
  split at h
  next => cases h; trivial
  next => exact staStore_fault_of_inv hs h
  next => exact staStore_fault_of_inv hs h
  next => exact staStore_fault_of_inv hs h

theorem iocBody_fault {s : State} {ch : BitVec 3} {fn : Byte} {c : Fetched} {f : Fault}
    (h : iocBody ch fn c s = .error f) : f.OfInvariantState := by
  unfold iocBody at h
  split at h
  next => cases h; trivial
  next =>
    split at h
    next => cases h; trivial
    next =>
      split at h
      next => cases h; trivial
      next => cases h

theorem exec_fault_of_inv {s : State} (hs : Inv s) {i : Instr} {f : Fault} (h : exec i s = .fault f) :
    f.OfInvariantState := by
  cases i with
  | tlj d n l => exact perform_fault_of_inv hs (fun _ _ => unimplementedBody_fault) h
  | tlx => exact perform_fault_of_inv hs (fun _ _ => unimplementedBody_fault) h
  | tmj d n l => exact perform_fault_of_inv hs (fun _ _ => unimplementedBody_fault) h
  | tmx => exact perform_fault_of_inv hs (fun _ _ => unimplementedBody_fault) h
  | bru a => exact perform_fault_of_inv hs (fun _ _ => unimplementedBody_fault) h
  | brl a => exact perform_fault_of_inv hs (fun _ hc hb => absurd hb (brlBody_ne_error hc a f)) h
  | ldx r n => exact perform_fault_of_inv (body := ldxBody r n) hs (fun _ _ => nofun) h
  | cpx r n => exact perform_fault_of_inv hs (fun c _ hb => absurd hb (cpxBody_ne_error hs r n c f)) h
  | sta r m p => exact perform_fault_of_inv hs (fun _ _ => staBody_fault_of_inv hs) h
  | ioc ch fn => exact perform_fault_of_inv hs (fun _ _ => iocBody_fault) h
  | unknown w => exact perform_fault_of_inv hs (fun _ _ => unknownBody_fault) h

/-- A fault of a step is one of its fetch, of the instruction it decoded, or of a type without a constructor. -/
theorem step_faults {s : State} {f : Fault} (h : step s = .fault f) :
    fetch s = .error f ∨ (∃ i, exec i s = .fault f) ∨ performUnhandled s = .fault f := by
  unfold step at h
  split at h
  next => cases h
  next =>
    split at h
    next g hg => cases h; exact .inl hg
    next =>
      split at h
      next i _ => exact .inr (.inl ⟨i, h⟩)
      next => exact .inr (.inr h)

theorem step_fault_of_inv {s : State} (hs : Inv s) {f : Fault} (h : step s = .fault f) : f.OfInvariantState := by
  rcases step_faults h with hf | ⟨i, hi⟩ | hu
  · exact fetch_fault_of_inv hs hf
  · exact exec_fault_of_inv hs hi
  · exact perform_fault_of_inv hs (fun _ _ => unimplementedBody_fault) hu

/-- Settles O27: the excluded faults are those for which `Fault.OfInvariantState` fails. -/
theorem faultsOfInvariantStates : Obligations.FaultsOfInvariantStates := by
  intro s f hs h
  have hf := step_fault_of_inv hs h
  refine ⟨?_, ?_, ?_, ?_⟩
  · rintro iaw w reg rfl
    exact hf
  · rintro slot p rfl
    exact hf
  · rintro a rfl
    exact hf rfl
  · rintro iaw a rfl
    exact hf

end Sys2Proof.Machine
end

section
/-! Encoding and decoding (30_encoding.md): the decoder inverts the encoder, and every word is the word of a well-formed
instruction, so the two together read all 65536 words. -/

namespace Sys2Proof

/-! ### The operands of an encoded instruction -/

theorem classify_encode {i : Instr} (h : i.wellFormed = true) : classify defaultDefs (encode i) = i.rowType := by
  cases i with
  | tlj d n l => exact Laws.EncodedRow.tlj d n l h
  | tlx => exact Laws.EncodedRow.tlx h
  | tmj d n l => exact Laws.EncodedRow.tmj d n l h
  | tmx => exact Laws.EncodedRow.tmx h
  | bru a => exact Laws.EncodedRow.bru a h
  | brl a => exact Laws.EncodedRow.brl a h
  | ldx r n => exact Laws.EncodedRow.ldx r n h
  | cpx r n => exact Laws.EncodedRow.cpx r n h
  | sta r m p => exact Laws.EncodedRow.sta r m p h
  | ioc ch f => exact Laws.EncodedRow.ioc ch f h
  | unknown w => exact Laws.EncodedRow.unknown w h

/-- The section bits of an embedded address overlap the opcode: they are its three lowest bits (R53, R54). -/
theorem opcode_section (op : BitVec 5) (r : BitVec 3) (n : BitVec 8) :
    (op ++ r ++ n : Word).extractLsb' 11 3 = op.extractLsb' 0 3 := by
  rw [BitVec.extractLsb'_append_eq_of_le (by decide), BitVec.extractLsb'_append_eq_of_le (by decide)]

/-- The embedded address of a branch word, whose section the opcode has to fix. -/
theorem embedded_branch {op : BitVec 5} {a : Addr} (h : a.sectionOf = op.extractLsb' 0 3) :
    addrOfSection ((op ++ a.levelOf ++ a.locationOf : Word).extractLsb' 11 3)
      ((op ++ a.levelOf ++ a.locationOf : Word).extractLsb' 8 3)
      ((op ++ a.levelOf ++ a.locationOf : Word).extractLsb' 0 8) = a := by
  obtain ⟨hlevel, hloc⟩ := opcode_fields op a.levelOf a.locationOf
  rw [opcode_section, hlevel, hloc, ← h, addrOfSection_eta]

theorem sta_fields (op : BitVec 5) (r : BitVec 3) (m : BitVec 2) (p : BitVec 6) :
    (op ++ r ++ m ++ p : Word).extractLsb' 8 3 = r ∧ (op ++ r ++ m ++ p : Word).extractLsb' 6 2 = m ∧
      (op ++ r ++ m ++ p : Word).extractLsb' 0 6 = p := by
  refine ⟨?_, ?_, BitVec.extractLsb'_append_eq_right⟩
  · rw [BitVec.extractLsb'_append_eq_of_le (by decide), BitVec.extractLsb'_append_eq_of_le (by decide)]
    exact BitVec.extractLsb'_append_eq_right
  · rw [BitVec.extractLsb'_append_eq_of_le (by decide)]
    exact BitVec.extractLsb'_append_eq_right

/-- Read as a word of its own row, the word of an instruction gives every operand back. -/
theorem instrOfType_encode {i : Instr} (h : i.wellFormed = true) : instrOfType (encode i) i.rowType = .ok i := by
  cases i with
  | tlx | tmx | unknown w => rfl
  | tlj d n l | tmj d n l => simp only [Instr.rowType, encode, instrOfType, jump_fields]
  | bru a | brl a =>
    have hsec := beq_iff_eq.mp h
    simp only [Instr.rowType, encode, instrOfType]
    rw [embedded_branch (hsec.trans (by decide))]
  | ldx r n | cpx r n | ioc r n => simp only [Instr.rowType, encode, instrOfType, opcode_fields]
  | sta r m p => simp only [Instr.rowType, encode, instrOfType, sta_fields]

/-- Settles O1: the word classifies as the instruction's row, and the row's format gives the operands back. -/
theorem decodeEncodeRoundTrip : Obligations.DecodeEncodeRoundTrip := by
  intro i h
  rw [decode_default, classify_encode h, instrOfType_encode h]

/-! ### Every word is the word of a well-formed instruction -/

theorem opcode_parts (w : Word) : (w.extractLsb' 11 5 ++ w.extractLsb' 8 3 ++ w.extractLsb' 0 8 : Word) = w := by
  rw [BitVec.extractLsb'_append_extractLsb'_eq_extractLsb' (show 11 = 8 + 3 from rfl),
    BitVec.extractLsb'_append_extractLsb'_eq_extractLsb' (show 8 = 0 + 8 from rfl)]
  exact BitVec.extractLsb'_eq_self

theorem jump_parts (w : Word) :
    (w.extractLsb' 13 3 ++ w.extractLsb' 12 1 ++ w.extractLsb' 8 4 ++ w.extractLsb' 0 8 : Word) = w := by
  rw [BitVec.extractLsb'_append_extractLsb'_eq_extractLsb' (show 13 = 12 + 1 from rfl),
    BitVec.extractLsb'_append_extractLsb'_eq_extractLsb' (show 12 = 8 + 4 from rfl),
    BitVec.extractLsb'_append_extractLsb'_eq_extractLsb' (show 8 = 0 + 8 from rfl)]
  exact BitVec.extractLsb'_eq_self

theorem top_jump_bits (w : Word) : (w.extractLsb' 11 5).extractLsb' 2 3 = w.extractLsb' 13 3 := by
  conv_rhs => rw [← word_split w, BitVec.extractLsb'_append_eq_of_le (by decide)]

/-- The five highest bits of a word, as a number, count the ranges of 2048 words (R61). -/
theorem top_toNat (w : Word) : (w.extractLsb' 11 5).toNat = w.toNat / 2048 := by
  have hw : w.toNat < 65536 := w.isLt
  rw [BitVec.extractLsb'_toNat, Nat.shiftRight_eq_div_pow]
  omega

/-- The five highest bits of a word: those of a jump row, of a 5-bit opcode, or of no named row (R61). -/
theorem top_cases : ∀ t : BitVec 5, t.extractLsb' 2 3 = 0b000#3 ∨ t.extractLsb' 2 3 = 0b001#3 ∨
    t = 0b01000#5 ∨ t = 0b01001#5 ∨ t = 0b10000#5 ∨ t = 0b10001#5 ∨ t = 0b10010#5 ∨ t = 0b10011#5 ∨
    (10 ≤ t.toNat ∧ t.toNat ≤ 15) ∨ 20 ≤ t.toNat := by decide

/-- Only the words of TLX and TMX keep operands of TLJ and TMJ from being well-formed (R58). -/
theorem wellFormed_jump (d : BitVec 1) (n : BitVec 4) (l : Byte) :
    (encode (.tlj d n l) ≠ encode .tlx → Instr.wellFormed (.tlj d n l) = true) ∧
      (encode (.tmj d n l) ≠ encode .tmx → Instr.wellFormed (.tmj d n l) = true) := by
  by_cases hz : (d == 0 && n == 0 && l == 0) = true
  · obtain ⟨⟨rfl, rfl⟩, rfl⟩ : (d = 0 ∧ n = 0) ∧ l = 0 := by simpa using hz
    exact ⟨fun h => absurd (by decide) h, fun h => absurd (by decide) h⟩
  · have hw : (!(d == 0 && n == 0 && l == 0)) = true := congrArg not (Bool.eq_false_iff.mpr hz)
    exact ⟨fun _ => hw, fun _ => hw⟩

/-- A word of an unassigned range is a well-formed Unknown (R61). -/
theorem wellFormed_unknown {w : Word} (h : (10 ≤ w.toNat / 2048 ∧ w.toNat / 2048 ≤ 15) ∨ 20 ≤ w.toNat / 2048) :
    Instr.wellFormed (.unknown w) = true := by
  simp only [Instr.wellFormed, isUnknownWord, Bool.or_eq_true, Bool.and_eq_true, decide_eq_true_eq]
  omega

/-- The encoder reaches every word: the two fixed words first, then the row the five highest bits name (R60, R61). -/
theorem exists_wellFormed_encode (w : Word) : ∃ i : Instr, i.wellFormed = true ∧ encode i = w := by
  by_cases h0 : w = 0x0000#16
  · exact ⟨.tlx, rfl, h0.symm⟩
  by_cases h2 : w = 0x2000#16
  · exact ⟨.tmx, rfl, h2.symm⟩
  have hjump := jump_parts w
  have hop := opcode_parts w
  rcases top_cases (w.extractLsb' 11 5) with ht | ht | ht | ht | ht | ht | ht | ht | ht
  · rw [← top_jump_bits, ht] at hjump
    exact ⟨.tlj _ _ _, (wellFormed_jump _ _ _).1 (hjump.trans_ne h0), hjump⟩
  · rw [← top_jump_bits, ht] at hjump
    exact ⟨.tmj _ _ _, (wellFormed_jump _ _ _).2 (hjump.trans_ne h2), hjump⟩
  · rw [ht] at hop
    refine ⟨.bru (addrOfSection 0#3 (w.extractLsb' 8 3) (w.extractLsb' 0 8)), ?_, ?_⟩
    · simp [Instr.wellFormed]
    · simpa [encode] using hop
  · rw [ht] at hop
    refine ⟨.brl (addrOfSection 1#3 (w.extractLsb' 8 3) (w.extractLsb' 0 8)), ?_, ?_⟩
    · simp [Instr.wellFormed]
    · simpa [encode] using hop
  · exact ⟨.ldx _ _, rfl, by rwa [ht] at hop⟩
  · exact ⟨.cpx _ _, rfl, by rwa [ht] at hop⟩
  · refine ⟨.sta (w.extractLsb' 8 3) (w.extractLsb' 6 2) (w.extractLsb' 0 6), rfl, ?_⟩
    rw [encode_sta, BitVec.extractLsb'_append_extractLsb'_eq_extractLsb' (show 6 = 0 + 6 from rfl)]
    rwa [ht] at hop
  · exact ⟨.ioc _ _, rfl, by rwa [ht] at hop⟩
  · exact ⟨.unknown w, wellFormed_unknown (by rwa [top_toNat] at ht), rfl⟩

/-- Settles O2: the word is that of a well-formed instruction, which the decoder reads back. -/
theorem everyWordDecodes : Obligations.EveryWordDecodes := by
  intro w
  obtain ⟨i, hi, rfl⟩ := exists_wellFormed_encode w
  exact ⟨i, decodeEncodeRoundTrip i hi, hi, rfl⟩

theorem decode_of_encode {i : Instr} {w : Word} (hw : encode i = w) (hi : i.wellFormed = true) :
    decode Config.default w = .ok i := hw ▸ decodeEncodeRoundTrip i hi

/-- Settles O3: each word is the word of the instruction it stands for. -/
theorem writtenWordsDecode : Obligations.WrittenWordsDecode :=
  ⟨decode_of_encode (by decide) (by decide), decode_of_encode (by decide) (by decide),
    decode_of_encode (by decide) (by decide), decode_of_encode (by decide) (by decide),
    decode_of_encode (by decide) (by decide), decode_of_encode (by decide) (by decide),
    decode_of_encode (by decide) (by decide), decode_of_encode (by decide) (by decide),
    decode_of_encode (by decide) (by decide), decode_of_encode (by decide) (by decide),
    decode_of_encode (by decide) (by decide)⟩

end Sys2Proof
end

section
/-! The classifier (30_encoding.md R55 to R61): which row of any definition table a word gets, the opcode map of the
default table, and the pattern facts the default parameters keep. -/

namespace Sys2Proof

/-! ### Any definition table -/

theorem popcount_le (w : Word) : popcount w ≤ 16 := by
  simpa [popcount] using List.countP_le_length (p := fun k => w.getLsbD k) (l := List.range 16)

/-- A pass leaves the type of the last row it stores, or, where it stores none, what the entry held (R58). -/
theorem classifyPass_last (defs : List DefRow) (w : Word) (bits : Nat) (t : InstrType) :
    (∃ before d after, defs = before ++ d :: after ∧ d.matchesWord w = true ∧ popcount d.mask = bits ∧
      classifyPass defs w bits t = d.type ∧ ∀ e ∈ after, e.matchesWord w = true → popcount e.mask ≠ bits) ∨
    ((∀ d ∈ defs, d.matchesWord w = true → popcount d.mask ≠ bits) ∧ classifyPass defs w bits t = t) := by
  induction defs generalizing t with
  | nil => exact .inr ⟨by simp, rfl⟩
  | cons c cs ih =>
    rcases ih (if popcount c.mask = bits ∧ c.matchesWord w = true then c.type else t) with
      ⟨before, d, after, rfl, hd, hbits, htype, hafter⟩ | ⟨hnone, htype⟩
    · exact .inl ⟨c :: before, d, after, rfl, hd, hbits, htype, hafter⟩
    · by_cases hc : popcount c.mask = bits ∧ c.matchesWord w = true
      · exact .inl ⟨[], c, cs, rfl, hc.2, hc.1, htype.trans (if_pos hc), hnone⟩
      · refine .inr ⟨?_, htype.trans (if_neg hc)⟩
        rw [List.forall_mem_cons]
        exact ⟨fun hm hp => hc ⟨hp, hm⟩, hnone⟩

/-- `t` is the type of the most specific of the rows that match `w` and have fewer than `k` fixed bits, of equal ones the
latest, or Unknown where there is no such row (R58, R59). -/
def MostSpecificBelow (defs : List DefRow) (w : Word) (k : Nat) (t : InstrType) : Prop :=
  (∃ before d after, defs = before ++ d :: after ∧ d.matchesWord w = true ∧ popcount d.mask < k ∧ t = d.type ∧
    (∀ e ∈ before, e.matchesWord w = true → popcount e.mask < k → popcount e.mask ≤ popcount d.mask) ∧
    (∀ e ∈ after, e.matchesWord w = true → popcount e.mask < k → popcount e.mask < popcount d.mask)) ∨
  ((∀ d ∈ defs, d.matchesWord w = true → k ≤ popcount d.mask) ∧ t = .unknown)

/-- A row stored by pass `k` has more fixed bits than every row before; a pass that stores none changes no winner. -/
theorem classifyPass_mostSpecific {defs : List DefRow} {w : Word} {k : Nat} {t : InstrType}
    (h : MostSpecificBelow defs w k t) : MostSpecificBelow defs w (k + 1) (classifyPass defs w k t) := by
  rcases classifyPass_last defs w k t with ⟨before, d, after, hdefs, hd, hbits, htype, hafter⟩ | ⟨hnone, htype⟩
  · refine .inl ⟨before, d, after, hdefs, hd, by omega, htype, fun e _ _ hlt => by omega, fun e he hm hlt => ?_⟩
    have hne := hafter e he hm
    omega
  · rw [htype]
    rcases h with ⟨before, d, after, rfl, hd, hbits, ht, hbefore, hafter⟩ | ⟨hge, ht⟩
    · have hlt : ∀ e ∈ before ++ d :: after, e.matchesWord w = true → popcount e.mask < k + 1 → popcount e.mask < k :=
        fun e he hm hlt => Nat.lt_of_le_of_ne (Nat.le_of_lt_succ hlt) (hnone e he hm)
      exact .inl ⟨before, d, after, rfl, hd, by omega, ht,
        fun e he hm h => hbefore e he hm (hlt e (by simp [he]) hm h),
        fun e he hm h => hafter e he hm (hlt e (by simp [he]) hm h)⟩
    · exact .inr ⟨fun d hd hm => Nat.lt_of_le_of_ne (hge d hd hm) (hnone d hd hm).symm, ht⟩

/-- After the passes below `k` the entry of `w` is that of the most specific row they can store. -/
theorem passes_mostSpecific (defs : List DefRow) (w : Word) (k : Nat) :
    MostSpecificBelow defs w k ((List.range k).foldl (fun t bits => classifyPass defs w bits t) .unknown) := by
  induction k with
  | zero => exact .inr ⟨fun _ _ _ => Nat.zero_le _, rfl⟩
  | succ k ih =>
    rw [List.range_succ, List.foldl_append]
    exact classifyPass_mostSpecific ih

/-- Settles O5: no mask has more than 16 bits, so the 17 passes see every row. -/
theorem mostSpecificRowWins : Obligations.MostSpecificRowWins := by
  intro defs w
  have hlt (d : DefRow) : popcount d.mask < 17 := Nat.lt_succ_of_le (popcount_le d.mask)
  rcases passes_mostSpecific defs w 17 with ⟨before, d, after, hdefs, hd, -, ht, hbefore, hafter⟩ | ⟨hge, ht⟩
  · exact .inl ⟨before, d, after, hdefs, hd, ht, fun e he hm => hbefore e he hm (hlt e),
      fun e he hm => hafter e he hm (hlt e)⟩
  · refine .inr ⟨fun d hd => ?_, ht⟩
    rw [Bool.eq_false_iff]
    exact fun hm => absurd (hge d hd hm) (Nat.not_le.mpr (hlt d))

/-! ### The default table -/

/-- The type of a word's five highest bits, as bounds on their number. -/
theorem typeOfTop_bounds : ∀ t : BitVec 5, typeOfTop t =
    (if t.toNat ≤ 3 then .tlj else if t.toNat ≤ 7 then .tmj else if t.toNat ≤ 8 then .bru
     else if t.toNat ≤ 9 then .brl else if t.toNat ≤ 15 then .unknown else if t.toNat ≤ 16 then .ldx
     else if t.toNat ≤ 17 then .cpx else if t.toNat ≤ 18 then .sta else if t.toNat ≤ 19 then .ioc
     else .unknown) := by decide

/-- A bound on the five highest bits is a bound on the word at the end of a range. -/
theorem top_le_iff (w : Word) (k : Nat) : (w.extractLsb' 11 5).toNat ≤ k ↔ w.toNat ≤ 2048 * k + 2047 := by
  rw [top_toNat]
  omega

/-- Settles O4: the two words all of whose bits are fixed apart, each bound of the map ends a range of five highest
bits. -/
theorem opcodeMap : Obligations.OpcodeMap := by
  intro w
  by_cases h0 : w = 0x0000#16
  · subst h0; exact classify_tlx
  by_cases h2 : w = 0x2000#16
  · subst h2; exact classify_tmx
  have hz : ¬ w.toNat = 0x0000 := fun h => h0 (BitVec.eq_of_toNat_eq h)
  have ht : ¬ w.toNat = 0x2000 := fun h => h2 (BitVec.eq_of_toNat_eq h)
  rw [classify_top w h0 h2, typeOfTop_bounds, if_neg hz, if_neg ht]
  simp only [top_le_iff]

/-- Settles O7: the rows stand in the table, and each stated word is the word of an instruction of the stated row. -/
theorem defaultParametersAreAdmissible : Obligations.DefaultParametersAreAdmissible where
  unknownRow := by decide
  oneRowEach := by decide
  tljRow := by decide
  tlxRow := by decide
  tmxRow := by decide
  zeroIsTlx := classify_tlx
  w2000IsTmx := classify_tmx
  w1022IsTlj := classify_encode (i := .tlj 1#1 0#4 34#8) (by decide)
  w4200IsBru := classify_encode (i := .bru 0x0200#14) (by decide)
  w802AIsLdx := ⟨classify_encode (i := .ldx 0#3 42#8) (by decide), by decide, by decide⟩
  tapeOneTransferIsIoc := ⟨0x9907#16, by decide, by decide, classify_encode (i := .ioc 1#3 0o007#8) (by decide)⟩
  iawBaseFits := by decide

end Sys2Proof
end

section
/-! The cycle (40_cycle.md R65, R66): what a step answers at each outcome of the fetch and of the decoding, and why a
machine with no fault recorded never refuses. -/

namespace Sys2Proof.Machine

/-! ### The step, by the outcomes of its phases -/

theorem step_of_fetch_fault {s : State} {f : Fault} (hs : s.fault = none) (hf : fetch s = .error f) :
    step s = .fault f := by
  simp only [step, hs, hf]

theorem step_of_decode_ok {s : State} {c : Fetched} {i : Instr} (hs : s.fault = none) (hf : fetch s = .ok c)
    (hd : decode s.cfg c.word = .ok i) : step s = exec i s := by
  simp only [step, hs, hf, hd]

theorem step_of_decode_error {s : State} {c : Fetched} {e : DecodeError} (hs : s.fault = none) (hf : fetch s = .ok c)
    (hd : decode s.cfg c.word = .error e) : step s = performUnhandled s := by
  simp only [step, hs, hf, hd]

/-! ### Which instruction a step runs -/

/-- Two bytes decode to an instruction exactly when the word composed of them does. -/
theorem decodeBytes_pair_ok {cfg : Config} {first second : Byte} {i : Instr} :
    decodeBytes cfg [first, second] = .ok (i, []) ↔ decode cfg (composeWord cfg.wordOrder first second) = .ok i := by
  cases hd : decode cfg (composeWord cfg.wordOrder first second) <;> simp [decodeBytes, hd]

/-- Settles O17: the two bytes are the word the step fetches, and decoding them is decoding that word. -/
theorem stepRunsDecodedInstruction : Obligations.StepRunsDecodedInstruction := by
  intro s a first second i hs hiaw hlt hfirst hsecond hi
  have hfetch : fetch s = .ok ⟨a, composeWord s.cfg.wordOrder first second⟩ :=
    fetch_of hiaw (fetchWord_of_bytes hlt hfirst hsecond)
  exact ⟨step_of_decode_ok hs hfetch (decodeBytes_pair_ok.mp hi), hfetch⟩

/-! ### Refusals -/

theorem exec_not_refused (i : Instr) (s : State) (r : Refusal) : exec i s ≠ .refused r := by
  obtain ⟨body, hbody⟩ := exec_is_perform i
  rw [hbody]
  exact perform_not_refused body s r

/-- The only refusal of a step is that of a machine already stopped (R65, R85). -/
theorem step_not_refused {s : State} (hs : s.fault = none) (r : Refusal) : step s ≠ .refused r := by
  cases hf : fetch s with
  | error f =>
    rw [step_of_fetch_fault hs hf]
    nofun
  | ok c =>
    cases hd : decode s.cfg c.word with
    | ok i =>
      rw [step_of_decode_ok hs hf hd]
      exact exec_not_refused i s r
    | error e =>
      rw [step_of_decode_error hs hf hd]
      exact perform_not_refused unimplementedBody s r

/-- Settles O22: of a step's three outcomes, a refusal is the one that does not occur. -/
theorem runningEngineNeverRefuses : Obligations.RunningEngineNeverRefuses := by
  intro s hs
  cases h : step s with
  | next t => exact .inl ⟨t, rfl⟩
  | fault f => exact .inr ⟨f, rfl⟩
  | refused r => exact absurd h (step_not_refused hs r)

end Sys2Proof.Machine
end

section
/-! The index-register instructions (41_ldx_cpx.md R69, R70): how an instruction that takes no branch completes, what a
register read answers, and the unsigned comparison. -/

namespace Sys2Proof.Machine

/-! ### Completion -/

/-- Wherever the instruction is fetched, an execute phase that takes no branch and keeps memory, parameters and stack
pointer is completed by the advance, which adds its store to the active slot and nothing else (R65). -/
theorem perform_completes {s u : State} {c : Fetched} {body : Fetched → State → Except Fault Effect}
    (hc : fetch s = .ok c) (hbody : body c s = .ok ⟨u, false⟩) (hcfg : u.cfg = s.cfg) (hsp : u.sp = s.sp)
    (hmem : u.mem = s.mem) :
    ∃ m, perform body s = .next { u with mem := m } ∧
      activeIaw { u with mem := m } = .ok c.iaw.nextInstruction ∧
      SameMemoryOutside (SlotByte s) s { u with mem := m } := by
  obtain ⟨m, hadv, hiaw, -⟩ := advance_completes (c := c) (e := ⟨u, false⟩) (slot_lt_of_fetch hc) rfl hcfg hsp
  exact ⟨m, (perform_of_body hc hbody).trans hadv, hiaw, advance_sameMemory hmem hadv⟩

/-! ### LDX -/

/-- Settles O32: the literal is stored whatever the register held, and the advance completes. -/
theorem ldxLoadsLiteral : Obligations.LdxLoadsLiteral := by
  refine ⟨fun r n => decodeEncodeRoundTrip (.ldx r n) rfl, fun s c r n hc => ?_⟩
  obtain ⟨m, hnext, hiaw, hmem⟩ := perform_completes (body := ldxBody r n) (u := s.setX r n) hc rfl rfl rfl rfl
  exact ⟨_, hnext, State.setX_cell_same s r n, fun _ hq => State.setX_cell_other s n hq, rfl, rfl, ⟨rfl, rfl, rfl⟩,
    ⟨rfl, rfl, rfl⟩, hiaw, hmem⟩

/-! ### CPX -/

theorem readX_of_written (c : Fetched) {s : State} {r : BitVec 3} {v : Byte} (h : s.cell r = some v) :
    readX c s r = .ok v := by
  simp only [readX, h]

theorem readX_of_unwritten (c : Fetched) {s : State} {r : BitVec 3} (h : s.cell r = none) :
    readX c s r = .error (.unwrittenRegister c.iaw c.word (.index r)) := by
  simp only [readX, h]

theorem cpxBody_of_written (c : Fetched) {s : State} {r : BitVec 3} {v : Byte} (n : Byte) (h : s.cell r = some v) :
    cpxBody r n c s = .ok ⟨s.setCmp (compareBytes v n), false⟩ := by
  simp only [cpxBody, readX_of_written c h]

theorem cpxBody_of_unwritten (c : Fetched) {s : State} {r : BitVec 3} (n : Byte) (h : s.cell r = none) :
    cpxBody r n c s = .error (.unwrittenRegister c.iaw c.word (.index r)) := by
  simp only [cpxBody, readX_of_unwritten c h]

/-- Bytes of equal unsigned value are equal, so the comparison tells Equal from High by the bytes themselves (R70). -/
theorem compareBytes_eq (v n : Byte) :
    compareBytes v n = if v.toNat < n.toNat then .low else if v = n then .equal else .high := by
  simp only [compareBytes, BitVec.toNat_inj]

/-- Settles O33: the register read decides between the fault and the comparison, which the advance completes. -/
theorem cpxComparesUnsigned : Obligations.CpxComparesUnsigned := by
  refine ⟨fun r n => decodeEncodeRoundTrip (.cpx r n) rfl, fun s c r n hc => ⟨fun hnone => ?_, fun v hv => ?_⟩⟩
  · exact perform_of_fault hc (cpxBody_of_unwritten c n hnone)
  · obtain ⟨m, hnext, hiaw, hmem⟩ := perform_completes hc (cpxBody_of_written c n hv) rfl rfl rfl
    exact ⟨_, hnext, compareBytes_eq v n, fun _ => rfl, rfl, ⟨rfl, rfl, rfl⟩, ⟨rfl, rfl, rfl⟩, hiaw, hmem⟩

end Sys2Proof.Machine
end

section
/-! IOC and the tapes (42_ioc.md R71 to R74): what the transfer does, how successive transfers read a tape, the checks
of IOC in their order, and why no other instruction depends on the tapes. -/

namespace Sys2Proof.Machine

/-! ### The transfer -/

theorem tapeByte_of_lt {s : State} {t : TapeId} (h : s.cursor t < (tapeBytes s.cfg t).length) :
    tapeByte s t = (tapeBytes s.cfg t)[s.cursor t] := List.getD_eq_getElem _ _ h

theorem tapeByte_of_le {s : State} {t : TapeId} (h : (tapeBytes s.cfg t).length ≤ s.cursor t) :
    tapeByte s t = eotByte := List.getD_eq_default _ _ h

@[simp] theorem State.setAcc_cursor (s : State) (v : Byte) (t : TapeId) : (s.setAcc v).cursor t = s.cursor t := rfl

@[simp] theorem transferByte_acc (t : TapeId) (s : State) : (transferByte t s).acc = some (tapeByte s t) := by
  simp [transferByte]
@[simp] theorem transferByte_cmp (t : TapeId) (s : State) : (transferByte t s).cmp = s.cmp := by simp [transferByte]
@[simp] theorem transferByte_sp (t : TapeId) (s : State) : (transferByte t s).sp = s.sp := by simp [transferByte]
@[simp] theorem transferByte_curTape (t : TapeId) (s : State) : (transferByte t s).curTape = s.curTape := by
  simp [transferByte]
@[simp] theorem transferByte_fault (t : TapeId) (s : State) : (transferByte t s).fault = s.fault := by
  simp [transferByte]
@[simp] theorem transferByte_cfg (t : TapeId) (s : State) : (transferByte t s).cfg = s.cfg := by simp [transferByte]
@[simp] theorem transferByte_cell (t : TapeId) (s : State) (q : BitVec 3) : (transferByte t s).cell q = s.cell q := by
  simp [transferByte]

@[simp] theorem transferByte_cursor_same (t : TapeId) (s : State) : (transferByte t s).cursor t = s.cursor t + 1 := by
  rw [transferByte, State.advanceTape_cursor, if_pos rfl, State.setAcc_cursor]

theorem transferByte_cursor_other (s : State) {t u : TapeId} (h : u ≠ t) :
    (transferByte t s).cursor u = s.cursor u := by
  rw [transferByte, State.advanceTape_cursor, if_neg h, State.setAcc_cursor]

/-! ### Successive transfers -/

/-- The last of several transfers is a transfer after the others. -/
theorem transfers_succ (t : TapeId) (k : Nat) (s : State) :
    transfers t (k + 1) s = transferByte t (transfers t k s) := by
  induction k generalizing s with
  | zero => rfl
  | succ k ih => exact ih (transferByte t s)

theorem transfers_cfg (t : TapeId) (k : Nat) (s : State) : (transfers t k s).cfg = s.cfg := by
  induction k with
  | zero => rfl
  | succ k ih => rw [transfers_succ, transferByte_cfg, ih]

theorem transfers_cursor_same (t : TapeId) (k : Nat) (s : State) : (transfers t k s).cursor t = s.cursor t + k := by
  induction k with
  | zero => rfl
  | succ k ih => rw [transfers_succ, transferByte_cursor_same, ih, Nat.add_assoc]

theorem transfers_cursor_other (k : Nat) (s : State) {t u : TapeId} (h : u ≠ t) :
    (transfers t k s).cursor u = s.cursor u := by
  induction k with
  | zero => rfl
  | succ k ih => rw [transfers_succ, transferByte_cursor_other _ h, ih]

/-- The transfer after `k` transfers reads `k` places after the first cursor, on the tape as it was. -/
theorem transfers_succ_acc (t : TapeId) (k : Nat) (s : State) :
    (transfers t (k + 1) s).acc = some ((tapeBytes s.cfg t).getD (s.cursor t + k) eotByte) := by
  rw [transfers_succ, transferByte_acc, tapeByte, transfers_cfg, transfers_cursor_same]

/-- Settles O36: the transfers before have moved the cursor `k` places on and left the tape as it was. -/
theorem transfersReadTapeInOrder : Obligations.TransfersReadTapeInOrder := by
  intro tape s k
  refine ⟨transfers_cursor_same tape k s, fun hlt => ?_, fun hle => ?_, fun _ => transfers_cursor_other k s,
    transfers_cfg tape k s⟩
  · rw [transfers_succ_acc, List.getD_eq_getElem _ _ hlt]
  · rw [transfers_succ_acc, List.getD_eq_default _ _ hle, eotByte]

/-! ### IOC -/

theorem iocBody_of_bad_channel {h : BitVec 3} (f : Byte) (c : Fetched) (s : State) (hh : 3 ≤ h.toNat) :
    iocBody h f c s = .error (.unimplementedOperation c.iaw c.word h f) := if_pos hh

theorem iocBody_of_bad_function {h : BitVec 3} {f : Byte} (c : Fetched) (s : State) (hh : h.toNat < 3)
    (hf : f ≠ transferByteBlocking) : iocBody h f c s = .error (.unimplementedOperation c.iaw c.word h f) := by
  rw [iocBody, if_neg (Nat.not_le.mpr hh), if_pos hf]

/-- Once channel and function code are accepted, the binding decides (R73). -/
theorem iocBody_of_unbound {h : BitVec 3} (c : Fetched) {s : State} (hh : h.toNat < 3) (hb : boundTape s h = none) :
    iocBody h transferByteBlocking c s = .error (.noCurrentTape c.iaw c.word h transferByteBlocking) := by
  simp only [iocBody, Nat.not_le.mpr hh, hb, if_false, ne_eq, not_true_eq_false]

theorem iocBody_of_bound {h : BitVec 3} (c : Fetched) {s : State} {tape : TapeId} (hh : h.toNat < 3)
    (hb : boundTape s h = some tape) :
    iocBody h transferByteBlocking c s = .ok ⟨transferByte tape { s with curTape := some tape }, false⟩ := by
  simp only [iocBody, Nat.not_le.mpr hh, hb, if_false, ne_eq, not_true_eq_false]

/-- Settles O35: each check passed leads to the next, and the transfer is completed by the advance. -/
theorem iocTransfersTapeByte : Obligations.IocTransfersTapeByte := by
  refine ⟨fun h f => decodeEncodeRoundTrip (.ioc h f) rfl, fun s c h f hc => ?_⟩
  refine ⟨fun hh => ?_, fun hh hf => ?_, ?_, ?_⟩
  · exact perform_of_fault hc (iocBody_of_bad_channel f c s hh)
  · exact perform_of_fault hc (iocBody_of_bad_function c s hh hf)
  · rintro rfl hnone
    exact perform_of_fault hc (iocBody_of_unbound c (by decide) hnone)
  · intro tape hh hb
    obtain ⟨m, hnext, hiaw, hmem⟩ := perform_completes hc (iocBody_of_bound c hh hb) (transferByte_cfg _ _)
      (transferByte_sp _ _) (transferByte_mem _ _)
    refine ⟨_, hnext, transferByte_curTape _ _, fun hlt => ?_, fun hle => ?_, transferByte_cursor_same _ _,
      fun _ hu => transferByte_cursor_other _ hu, transferByte_cell _ _, transferByte_cmp _ _,
      ⟨transferByte_sp _ _, transferByte_fault _ _, transferByte_cfg _ _⟩, hiaw, hmem⟩
    · exact (transferByte_acc _ _).trans (congrArg some (tapeByte_of_lt hlt))
    · exact (transferByte_acc _ _).trans (congrArg some (tapeByte_of_le hle))

/-! ### The tapes and the shared phases -/

/-- The effect with the tapes of its state replaced. -/
def Effect.withTapes (t1 t2 : List Byte) (e : Effect) : Effect := ⟨e.state.withTapes t1 t2, e.taken⟩

/-- Replacing the tapes before an execute phase is replacing them in the state it leaves: its checks and its faults do
not look at them (R72). -/
def TapeBlind (body : Fetched → State → Except Fault Effect) : Prop :=
  ∀ c s t1 t2, body c (s.withTapes t1 t2) = (body c s).map (Effect.withTapes t1 t2)

theorem fetch_withTapes (s : State) (t1 t2 : List Byte) : fetch (s.withTapes t1 t2) = fetch s := rfl

theorem slotAddr_withTapes (s : State) (t1 t2 : List Byte) : slotAddr (s.withTapes t1 t2) = slotAddr s := rfl

theorem withTapes_addrWordOrder (s : State) (t1 t2 : List Byte) :
    (s.withTapes t1 t2).cfg.addrWordOrder = s.cfg.addrWordOrder := rfl

theorem disassemble_withTapes (s : State) (t1 t2 : List Byte) (w : Word) :
    disassemble (s.withTapes t1 t2).cfg w = disassemble s.cfg w := rfl

theorem memWrite_withTapes (s : State) (t1 t2 : List Byte) (iaw : Option Addr) (a : Nat) (v : Byte) :
    memWrite (s.withTapes t1 t2) iaw a v = (memWrite s iaw a v).map (State.withTapes · t1 t2) := by
  unfold memWrite
  split <;> rfl

/-- The second byte is stored in the state the first store leaves, whose tapes are the replaced ones too. -/
theorem writeAddrWord_withTapes (s : State) (t1 t2 : List Byte) (iaw : Option Addr) (slot : Nat) (a : Addr) :
    writeAddrWord (s.withTapes t1 t2) iaw slot a = (writeAddrWord s iaw slot a).map (State.withTapes · t1 t2) := by
  simp only [writeAddrWord, withTapes_addrWordOrder, memWrite_withTapes]
  cases memWrite s iaw slot (addrWordBytes s.cfg.addrWordOrder a).1 with
  | error f => rfl
  | ok u => exact memWrite_withTapes u t1 t2 iaw (slot + 1) _

theorem advance_withTapes (s : State) (t1 t2 : List Byte) (c : Fetched) (e : Effect) :
    advance (s.withTapes t1 t2) c (e.withTapes t1 t2) = withTapesOutcome t1 t2 (advance s c e) := by
  obtain ⟨u, taken⟩ := e
  cases taken with
  | true => rfl
  | false =>
    simp only [advance, Effect.withTapes, slotAddr_withTapes, writeAddrWord_withTapes]
    cases writeAddrWord u (some c.iaw) (slotAddr s).toNat c.iaw.nextInstruction <;> rfl

theorem perform_withTapes {body : Fetched → State → Except Fault Effect} (hbody : TapeBlind body) (s : State)
    (t1 t2 : List Byte) : perform body (s.withTapes t1 t2) = withTapesOutcome t1 t2 (perform body s) := by
  cases hf : fetch s with
  | error f =>
    rw [perform_of_fetch_fault body hf, perform_of_fetch_fault body ((fetch_withTapes s t1 t2).trans hf)]
    rfl
  | ok c =>
    have hf' : fetch (s.withTapes t1 t2) = .ok c := (fetch_withTapes s t1 t2).trans hf
    have hb' := hbody c s t1 t2
    cases hb : body c s with
    | error f =>
      rw [hb] at hb'
      rw [perform_of_fault hf hb, perform_of_fault hf' hb']
      rfl
    | ok e =>
      rw [hb] at hb'
      rw [perform_of_body hf hb, perform_of_body hf' hb']
      exact advance_withTapes s t1 t2 c e

/-! ### The execute phases other than IOC's -/

/-- The text in the fault record is the same: no rendering of an operand spells a tape (R63). -/
theorem tapeBlind_unimplemented : TapeBlind unimplementedBody := by
  intro c s t1 t2
  rw [unimplementedBody, disassemble_withTapes]
  rfl

theorem tapeBlind_unknown : TapeBlind unknownBody := fun _ _ _ _ => rfl

theorem tapeBlind_ldx (r : BitVec 3) (n : Byte) : TapeBlind (ldxBody r n) := fun _ _ _ _ => rfl

theorem tapeBlind_cpx (r : BitVec 3) (n : Byte) : TapeBlind (cpxBody r n) := by
  intro c s t1 t2
  have hcell : (s.withTapes t1 t2).cell r = s.cell r := rfl
  cases h : s.cell r with
  | none => rw [cpxBody_of_unwritten c n h, cpxBody_of_unwritten c n (hcell.trans h)]; rfl
  | some v => rw [cpxBody_of_written c n h, cpxBody_of_written c n (hcell.trans h)]; rfl

/-- The target is stored through the same slot, whichever tapes stand beside it. -/
theorem tapeBlind_brl (target : Addr) : TapeBlind (brlBody target) := by
  intro c s t1 t2
  have hcmp : (s.withTapes t1 t2).cmp = s.cmp := rfl
  cases h : s.cmp with
  | low =>
    simp only [brlBody, hcmp, h, slotAddr_withTapes, writeAddrWord_withTapes]
    cases writeAddrWord s (some c.iaw) (slotAddr s).toNat (branchTarget c.iaw target) <;> rfl
  | equal => simp only [brlBody, hcmp, h]; rfl
  | high => simp only [brlBody, hcmp, h]; rfl

theorem postModify_withTapes (s : State) (t1 t2 : List Byte) (mode : IndexMode) (r : BitVec 3) (x : Byte) :
    postModify (s.withTapes t1 t2) mode r x = (postModify s mode r x).withTapes t1 t2 := by
  cases mode <;> rfl

theorem tapeBlind_staStore (mode : IndexMode) (r : BitVec 3) (p : BitVec 6) : TapeBlind (staStore mode r p) := by
  intro c s t1 t2
  have hx : readX c (s.withTapes t1 t2) r = readX c s r := rfl
  have hv : readAcc c (s.withTapes t1 t2) = readAcc c s := rfl
  have hslot (a : Addr) : inActiveSlot (s.withTapes t1 t2) a = inActiveSlot s a := rfl
  simp only [staStore, hx, hv, hslot, memWrite_withTapes]
  cases readX c s r with
  | error f => rfl
  | ok x =>
    cases readAcc c s with
    | error f => rfl
    | ok v =>
      simp only
      split
      · rfl
      · rw [memWrite_of_lt s _ v (indirectAddr p x).isLt]
        simp only [Except.map, postModify_withTapes, Effect.withTapes]

theorem tapeBlind_sta (r : BitVec 3) (code : BitVec 2) (p : BitVec 6) : TapeBlind (staBody r code p) := by
  intro c s t1 t2
  have hmode : (s.withTapes t1 t2).cfg.modeMap = s.cfg.modeMap := rfl
  simp only [staBody, hmode]
  cases s.cfg.modeMap.modeOf code with
  | reserved => rfl
  | unchanged => exact tapeBlind_staStore .unchanged r p c s t1 t2
  | increment => exact tapeBlind_staStore .increment r p c s t1 t2
  | decrement => exact tapeBlind_staStore .decrement r p c s t1 t2

/-- The execute phase of every instruction but IOC is blind to the tapes. -/
theorem exec_is_tapeBlind_perform {i : Instr} (hi : ∀ h f, i ≠ .ioc h f) :
    ∃ body, TapeBlind body ∧ ∀ s, exec i s = perform body s := by
  cases i with
  | tlj d n l => exact ⟨_, tapeBlind_unimplemented, exec_tlj d n l⟩
  | tlx => exact ⟨_, tapeBlind_unimplemented, exec_tlx⟩
  | tmj d n l => exact ⟨_, tapeBlind_unimplemented, exec_tmj d n l⟩
  | tmx => exact ⟨_, tapeBlind_unimplemented, exec_tmx⟩
  | bru a => exact ⟨_, tapeBlind_unimplemented, exec_bru a⟩
  | brl a => exact ⟨_, tapeBlind_brl a, exec_brl a⟩
  | ldx r n => exact ⟨_, tapeBlind_ldx r n, exec_ldx r n⟩
  | cpx r n => exact ⟨_, tapeBlind_cpx r n, exec_cpx r n⟩
  | sta r m p => exact ⟨_, tapeBlind_sta r m p, exec_sta r m p⟩
  | ioc h f => exact absurd rfl (hi h f)
  | unknown w => exact ⟨_, tapeBlind_unknown, exec_unknown w⟩

/-- Settles O31: neither the shared fetch and advance nor an execute phase other than IOC's looks at the tapes. -/
theorem tapesReachOnlyIoc : Obligations.TapesReachOnlyIoc := by
  intro i s t1 t2 hi
  obtain ⟨body, hblind, hbody⟩ := exec_is_tapeBlind_perform hi
  rw [hbody, hbody, perform_withTapes hblind]

end Sys2Proof.Machine
end

section
/-! STA (43_sta.md R75): the checks of its execute phase in their order, the post-modification by mode, and what the
completed store leaves. -/

namespace Sys2Proof.Machine

/-! ### The checks -/

theorem inActiveSlot_iff (s : State) (a : Addr) : inActiveSlot s a = true ↔ SlotByte s a.toNat := by
  simp [inActiveSlot, SlotByte]

theorem staBody_of_reserved {r : BitVec 3} {code : BitVec 2} (p : BitVec 6) (c : Fetched) {s : State}
    (hmode : s.cfg.modeMap.modeOf code = .reserved) :
    staBody r code p c s = .error (.reservedIndexingMode c.iaw c.word) := by
  simp only [staBody, hmode]

/-- A code that is not reserved only chooses the mode of the one store. -/
theorem staBody_of_not_reserved (r : BitVec 3) {code : BitVec 2} (p : BitVec 6) (c : Fetched) {s : State}
    (hmode : s.cfg.modeMap.modeOf code ≠ .reserved) :
    staBody r code p c s = staStore (s.cfg.modeMap.modeOf code) r p c s := by
  unfold staBody
  split
  next h => exact absurd h hmode
  next h => rw [h]
  next h => rw [h]
  next h => rw [h]

theorem staStore_of_index_unwritten (mode : IndexMode) {r : BitVec 3} (p : BitVec 6) (c : Fetched) {s : State}
    (hx : s.cell r = none) : staStore mode r p c s = .error (.unwrittenRegister c.iaw c.word (.index r)) := by
  simp only [staStore, readX_of_unwritten c hx]

theorem staStore_of_acc_unwritten (mode : IndexMode) {r : BitVec 3} (p : BitVec 6) (c : Fetched) {s : State} {x : Byte}
    (hx : s.cell r = some x) (hv : s.acc = none) :
    staStore mode r p c s = .error (.unwrittenRegister c.iaw c.word .accumulator) := by
  simp only [staStore, readX_of_written c hx, readAcc, hv]

theorem staStore_of_slotByte (mode : IndexMode) {r : BitVec 3} {p : BitVec 6} (c : Fetched) {s : State} {x v : Byte}
    (hx : s.cell r = some x) (hv : s.acc = some v) (hslot : SlotByte s (indirectAddr p x).toNat) :
    staStore mode r p c s = .error (.iawHazard c.iaw c.word (indirectAddr p x)) := by
  simp only [staStore, readX_of_written c hx, readAcc, hv, (inActiveSlot_iff s _).mpr hslot, if_true]

/-! ### The post-modification -/

theorem indexIncrement_eq (wrap : IndexWrap) (x : Byte) :
    indexIncrement wrap x = BitVec.ofNat 8 ((x.toNat + 1) % 256) := by
  cases wrap
  exact BitVec.eq_of_toNat_eq (by simp [indexIncrement])

/-- One less modulo 256 is 255 more. -/
theorem indexDecrement_eq (wrap : IndexWrap) (x : Byte) :
    indexDecrement wrap x = BitVec.ofNat 8 ((x.toNat + 255) % 256) := by
  cases wrap
  exact BitVec.eq_of_toNat_eq (by simp [indexDecrement, Nat.add_comm])

theorem postModify_increment_cell (s : State) (r : BitVec 3) (x : Byte) :
    (postModify s .increment r x).cell r = some (BitVec.ofNat 8 ((x.toNat + 1) % 256)) := by
  rw [← indexIncrement_eq s.cfg.indexWrap]
  exact State.setX_cell_same s r _

theorem postModify_decrement_cell (s : State) (r : BitVec 3) (x : Byte) :
    (postModify s .decrement r x).cell r = some (BitVec.ofNat 8 ((x.toNat + 255) % 256)) := by
  rw [← indexDecrement_eq s.cfg.indexWrap]
  exact State.setX_cell_same s r _

/-- The update of the register does not depend on what the store before it has written. -/
theorem postModify_cell_mem (s : State) (m : Memory) (mode : IndexMode) (r : BitVec 3) (x : Byte) (q : BitVec 3) :
    (postModify { s with mem := m } mode r x).cell q = (postModify s mode r x).cell q := by
  cases mode <;> rfl

/-! ### Completion -/

/-- Wherever STA is fetched with its checks passed, it completes, and `X[r]` holds what the post-modification alone
would have left in it. -/
theorem sta_completes {s : State} {c : Fetched} {r : BitVec 3} {code : BitVec 2} {p : BitVec 6} {x v : Byte}
    (hc : fetch s = .ok c) (hmode : s.cfg.modeMap.modeOf code ≠ .reserved) (hx : s.cell r = some x)
    (hv : s.acc = some v) (hoff : ¬ SlotByte s (indirectAddr p x).toNat) :
    ∃ t, exec (.sta r code p) s = .next t ∧ activeIaw t = .ok c.iaw.nextInstruction ∧
      t.cell r = (postModify s (s.cfg.modeMap.modeOf code) r x).cell r := by
  have hin : inActiveSlot s (indirectAddr p x) = false := by
    rw [← Bool.not_eq_true, inActiveSlot_iff]
    exact hoff
  have hbody := (staBody_of_not_reserved r p c hmode).trans (staStore_of c hx hv hin)
  obtain ⟨hsp, -, hcfg⟩ := (registerFrame_sta s r code p (Memory.write s.mem (indirectAddr p x).toNat v)
    (s.cfg.modeMap.modeOf code) x).control
  obtain ⟨m, hnext, hiaw, -⟩ := advance_completes (c := c) (e := ⟨_, false⟩) (slot_lt_of_fetch hc) rfl hcfg hsp
  exact ⟨_, (perform_of_body hc hbody).trans hnext, hiaw, postModify_cell_mem s _ _ r x r⟩

/-- Settles O34: each check passed leads to the next; the completed store keeps STA's frame of registers and memory, and
the mode alone decides what `X[r]` holds. -/
theorem staStoresAndPostModifies : Obligations.StaStoresAndPostModifies := by
  refine ⟨fun r m p => decodeEncodeRoundTrip (.sta r m p) rfl, fun s c r m p hc => ⟨fun hres => ?_, fun hmode => ?_⟩⟩
  · exact perform_of_fault hc (staBody_of_reserved p c hres)
  have hbody := staBody_of_not_reserved r p c hmode
  refine ⟨fun hx => ?_, fun x hx => ⟨fun hv => ?_, fun v hv => ⟨fun hslot => ?_, fun hoff => ?_⟩⟩⟩
  · exact perform_of_fault hc (hbody.trans (staStore_of_index_unwritten _ p c hx))
  · exact perform_of_fault hc (hbody.trans (staStore_of_acc_unwritten _ p c hx hv))
  · exact perform_of_fault hc (hbody.trans (staStore_of_slotByte _ c hx hv hslot))
  · obtain ⟨t, hnext, hiaw, hcell⟩ := sta_completes hc hmode hx hv hoff
    obtain ⟨hcontrol, hcmp, hio, hindex⟩ := (exec_next_frame_and_iaw hnext).1
    obtain ⟨hacc, htapes⟩ := hio (by simp)
    have hother : SameIndexBut r s t := fun q hq => hindex q (by simp) (by simp [hq.symm])
    have hmem := (onlyStaWritesMemory _ s t hnext).2 r m p x rfl hx
    refine ⟨t, hnext, addrOfPage_toNat p x, sta_next_target hnext hx hv, fun h => ?_, fun h => ?_, fun h => ?_, hother,
      hacc, hcmp (by simp), htapes, hcontrol, hiaw, hmem⟩
    · rw [hcell, h, postModify_increment_cell]
    · rw [hcell, h, postModify_decrement_cell]
    · rw [hcell, h]
      exact hx

end Sys2Proof.Machine
end

section
/-! The branch family (44_branch.md R76, R77) with TLJ and TMJ (45_unimplemented.md R78, R80): what a BRL that is fetched
does with `CMP` Low and otherwise, why one to itself changes nothing, and the fault of the types without a rule. -/

namespace Sys2Proof.Machine

/-! ### BRL -/

theorem encode_brl_addrOfSection (sec l : BitVec 3) (loc : Byte) :
    encode (.brl (addrOfSection sec l loc)) = 0b01001#5 ++ l ++ loc := by
  simp [encode]

theorem brlBody_of_not_low (a : Addr) (c : Fetched) {s : State} (h : s.cmp ≠ .low) : brlBody a c s = .ok ⟨s, false⟩ := by
  unfold brlBody
  split
  next hlow => exact absurd hlow h
  next => rfl
  next => rfl

/-- A taken BRL ends with its store of the target: the advance keeps what the branch has stored (R65 phase 4). -/
theorem exec_brl_of_store {s t : State} {c : Fetched} {a : Addr} (hc : fetch s = .ok c) (hlow : s.cmp = .low)
    (hw : writeAddrWord s (some c.iaw) (slotAddr s).toNat (branchTarget c.iaw a) = .ok t) :
    exec (.brl a) s = .next t := by
  have hbody : brlBody a c s = .ok ⟨t, true⟩ := by simp only [brlBody, hlow, hw]
  exact perform_of_body hc hbody

theorem exec_brl_of_low {s : State} {c : Fetched} (a : Addr) (hc : fetch s = .ok c) (hlow : s.cmp = .low) :
    ∃ m, exec (.brl a) s = .next { s with mem := m } ∧ activeIaw { s with mem := m } = .ok (branchTarget c.iaw a) ∧
      SameMemoryOutside (SlotByte s) s { s with mem := m } := by
  obtain ⟨m, hw, hiaw, hmem, -⟩ :=
    writeSlot_completes (t := s) (some c.iaw) (branchTarget c.iaw a) (slot_lt_of_fetch hc) rfl rfl
  exact ⟨m, exec_brl_of_store hc hlow hw, hiaw, hmem⟩

theorem exec_brl_of_not_low {s : State} {c : Fetched} (a : Addr) (hc : fetch s = .ok c) (h : s.cmp ≠ .low) :
    ∃ m, exec (.brl a) s = .next { s with mem := m } ∧ activeIaw { s with mem := m } = .ok c.iaw.nextInstruction ∧
      SameMemoryOutside (SlotByte s) s { s with mem := m } :=
  perform_completes hc (brlBody_of_not_low a c h) rfl rfl rfl

/-- Settles O37: whether the branch is taken or the advance completes, only memory in the active slot is stored to. -/
theorem brlBranchesOnLow : Obligations.BrlBranchesOnLow := by
  refine ⟨fun l loc => decode_of_encode (encode_brl_addrOfSection 1#3 l loc) (by simp [Instr.wellFormed]),
    fun s c a hc => ⟨fun hlow => ?_, fun hne => ?_⟩⟩
  · obtain ⟨m, hnext, hiaw, hmem⟩ := exec_brl_of_low a hc hlow
    exact ⟨_, hnext, hiaw, fun _ => rfl, rfl, rfl, ⟨rfl, rfl, rfl⟩, ⟨rfl, rfl, rfl⟩, hmem⟩
  · obtain ⟨m, hnext, hiaw, hmem⟩ := exec_brl_of_not_low a hc hne
    exact ⟨_, hnext, hiaw, fun _ => rfl, rfl, rfl, ⟨rfl, rfl, rfl⟩, ⟨rfl, rfl, rfl⟩, hmem⟩

/-! ### BRL to itself -/

/-- In canonical memory, storing the address that a slot already holds changes nothing (R33, R34). -/
theorem writeAddrWord_of_read {s : State} {slot : Nat} {a : Addr} (iaw : Option Addr) (hwf : Memory.wf s.mem = true)
    (h : readAddrWord s slot = .ok a) : writeAddrWord s iaw slot a = .ok s := by
  obtain ⟨hlt, h0, h1⟩ := readAddrWord_ok h
  rw [writeAddrWord_of_lt s iaw a hlt, Memory.write_read_self hwf h0, Memory.write_read_self hwf h1]

/-- Settles O47: the branch stores the address that the slot holds, so the step answers the state it began in, and a run
never leaves it. -/
theorem branchToItselfNeverEnds : Obligations.BranchToItselfNeverEnds := by
  intro s c a k hwf hs hc hd hlow htarget
  have hiaw : readAddrWord s (slotAddr s).toNat = .ok c.iaw := (fetch_ok hc).1
  have hstore : writeAddrWord s (some c.iaw) (slotAddr s).toNat (branchTarget c.iaw a) = .ok s := by
    rw [htarget]
    exact writeAddrWord_of_read _ hwf hiaw
  have hstep : step s = .next s := (step_of_decode_ok hs hc hd).trans (exec_brl_of_store hc hlow hstore)
  exact run_of_fixed core hstep k

/-! ### TLJ, TMJ and BRU -/

theorem encode_bru_addrOfSection (sec l : BitVec 3) (loc : Byte) :
    encode (.bru (addrOfSection sec l loc)) = 0b01000#5 ++ l ++ loc := by
  simp [encode]

/-- Operands that are not all zero are well-formed for both jumps: the all-zero words are TLX and TMX (R58). -/
theorem wellFormed_jump_of_operands {d : BitVec 1} {n : BitVec 4} {b : Byte} (h : ¬ (d = 0#1 ∧ n = 0#4 ∧ b = 0#8)) :
    Instr.wellFormed (.tlj d n b) = true ∧ Instr.wellFormed (.tmj d n b) = true := by
  have hoperands : (!(d == 0 && n == 0 && b == 0)) = true :=
    congrArg not (Bool.eq_false_iff.mpr fun hz => h (by simpa [and_assoc] using hz))
  exact ⟨hoperands, hoperands⟩

/-- A type without a rule stops on either path: with its fetch's fault, or with R66's own. -/
theorem perform_unimplemented_faults (s : State) :
    (∀ f, fetch s = .error f → perform unimplementedBody s = .fault f) ∧
    (∀ c, fetch s = .ok c →
      perform unimplementedBody s = .fault (.unimplementedInstruction c.iaw c.word (disassemble s.cfg c.word))) :=
  ⟨fun _ hf => perform_of_fetch_fault _ hf, fun _ hc => perform_of_fault hc rfl⟩

/-- Settles O38: each word is that of its well-formed instruction, and all three types share the execute phase that
faults. -/
theorem tljTmjBruAlwaysFault : Obligations.TljTmjBruAlwaysFault := by
  refine ⟨fun d n b h => ?_, fun l loc => ?_, fun s i hi => ?_⟩
  · obtain ⟨htlj, htmj⟩ := wellFormed_jump_of_operands h
    exact ⟨decodeEncodeRoundTrip (.tlj d n b) htlj, decodeEncodeRoundTrip (.tmj d n b) htmj⟩
  · exact decode_of_encode (encode_bru_addrOfSection 0#3 l loc) (by simp [Instr.wellFormed])
  · rcases hi with ⟨d, n, b, rfl⟩ | ⟨d, n, b, rfl⟩ | ⟨a, rfl⟩
    · rw [exec_tlj]
      exact perform_unimplemented_faults s
    · rw [exec_tmj]
      exact perform_unimplemented_faults s
    · rw [exec_bru]
      exact perform_unimplemented_faults s

end Sys2Proof.Machine
end

section
/-! The types that only fault (45_unimplemented.md R79, R81 to R83): the one word of TLX and of TMX with its text, the
words of Unknown with their octal record, and the step of a named type without a rule. -/

namespace Sys2Proof.Machine

/-! ### TLX and TMX -/

/-- A row that has a single instruction has a single word under the default table. -/
theorem classify_eq_rowType_iff {i : Instr} (hi : i.wellFormed = true)
    (hsingle : ∀ j : Instr, j.rowType = i.rowType → j = i) (w : Word) :
    classify defaultDefs w = i.rowType ↔ w = encode i := by
  constructor
  · intro h
    obtain ⟨j, hj, rfl⟩ := exists_wellFormed_encode w
    rw [classify_encode hj] at h
    rw [hsingle j h]
  · rintro rfl
    exact classify_encode hi

theorem rowType_eq_tlx {j : Instr} (h : j.rowType = .tlx) : j = .tlx := by
  cases j with
  | tlx => rfl
  | _ => cases h

theorem rowType_eq_tmx {j : Instr} (h : j.rowType = .tmx) : j = .tmx := by
  cases j with
  | tmx => rfl
  | _ => cases h

/-- The text of a word whose row renders no operand is the row's mnemonic (R63). -/
theorem disassemble_of_no_flags {cfg : Config} {d : DefRow} {w : Word}
    (hrow : (cfg.defs.find? fun e => e.type = classify cfg.defs w) = some d) (hflags : d.flags = []) :
    disassemble cfg w = d.mnemonic := by
  simp [disassemble, hrow, disassembleRow, hflags, spaced]

theorem disassemble_tlx {cfg : Config} (h : cfg.defs = defaultDefs) : disassemble cfg 0x0000#16 = ['T', 'L', 'X'] :=
  disassemble_of_no_flags (d := ⟨.tlx, ['T', 'L', 'X'], 0x0000#16, 0xFFFF#16, []⟩)
    (by rw [h, classify_tlx]; rfl) rfl

theorem disassemble_tmx {cfg : Config} (h : cfg.defs = defaultDefs) : disassemble cfg 0x2000#16 = ['T', 'M', 'X'] :=
  disassemble_of_no_flags (d := ⟨.tmx, ['T', 'M', 'X'], 0x2000#16, 0xFFFF#16, []⟩)
    (by rw [h, classify_tmx]; rfl) rfl

/-- Settles O39: both rows have a single instruction and no operand, and share the execute phase that faults. -/
theorem tlxTmxAlwaysFault : Obligations.TlxTmxAlwaysFault := by
  refine ⟨classify_eq_rowType_iff (i := .tlx) rfl fun _ => rowType_eq_tlx,
    classify_eq_rowType_iff (i := .tmx) rfl fun _ => rowType_eq_tmx,
    fun cfg h => ⟨disassemble_tlx h, disassemble_tmx h⟩, fun s i hi => ?_⟩
  rcases hi with rfl | rfl
  · rw [exec_tlx]
    exact perform_unimplemented_faults s
  · rw [exec_tmx]
    exact perform_unimplemented_faults s

/-! ### Unknown -/

/-- The two bytes of the octal record, left then right, as numbers (R7, R83). -/
theorem octalWord_eq (w : Word) :
    octalWord w = fixedDigits 8 3 (w.toNat / 256) ++ '-' :: fixedDigits 8 3 (w.toNat % 256) := by
  have hleft : (w.extractLsb' 8 8).toNat = w.toNat / 256 := by
    have hw : w.toNat < 65536 := w.isLt
    rw [BitVec.extractLsb'_toNat, Nat.shiftRight_eq_div_pow]
    omega
  have hright : (w.extractLsb' 0 8).toNat = w.toNat % 256 := BitVec.extractLsb'_toNat 0 8 w
  rw [octalWord, octalByte, octalByte, hleft, hright]

/-- Settles O40: a word of the two ranges is that of a well-formed Unknown, whose execute phase always faults. -/
theorem unknownAlwaysFaults : Obligations.UnknownAlwaysFaults := by
  refine ⟨fun w hw => decodeEncodeRoundTrip (.unknown w) (wellFormed_unknown (by omega)), fun s w => ?_⟩
  rw [exec_unknown]
  refine ⟨fun f hf => perform_of_fetch_fault _ hf, fun c hc => ?_⟩
  rw [← octalWord_eq]
  exact perform_of_fault hc rfl

/-! ### Named types of a longer table -/

theorem decode_of_classify_other {cfg : Config} {w : Word} {n : Nat} (h : classify cfg.defs w = .other n) :
    decode cfg w = .error (.unhandledType n) := by
  simp only [decode, h]

/-- A fault commits nothing: the host records it in the state the step began in (R85). -/
theorem hostStep_of_fault {s : State} {f : Fault} (h : step s = .fault f) : hostStep s = { s with fault := some f } := by
  simp only [hostStep, h]

/-- Settles O18: no constructor of `Instr` stands for the type, so the step runs the execute phase of the types without
a rule. -/
theorem unnamedTypesFault : Obligations.UnnamedTypesFault := by
  intro s c n hs hc hn
  have hstep : step s = .fault (.unimplementedInstruction c.iaw c.word (disassemble s.cfg c.word)) :=
    (step_of_decode_error hs hc (decode_of_classify_other hn)).trans ((perform_unimplemented_faults s).2 c hc)
  exact ⟨hstep, hostStep_of_fault hstep⟩

end Sys2Proof.Machine
end

section
/-! Exceptions (60_exceptions.md): the order of the first two phases' faults, what a recorded fault does to the steps
after it, and what the dump shows. -/

namespace Sys2Proof.Machine

/-! ### The faults of the first two phases -/

theorem fetch_of_iaw_fault {s : State} {f : Fault} (ha : activeIaw s = .error f) : fetch s = .error f := by
  simp only [fetch, ha]

theorem fetch_of_word_fault {s : State} {a : Addr} {f : Fault} (ha : activeIaw s = .ok a)
    (hw : fetchWord s a = .error f) : fetch s = .error f := by
  simp only [fetch, ha, hw]

/-- Settles O19: either fault is the fetch's, and a step that fetches nothing runs no instruction. -/
theorem fetchFaultsComeFirst : Obligations.FetchFaultsComeFirst := fun _ _ hs =>
  ⟨fun ha => step_of_fetch_fault hs (fetch_of_iaw_fault ha),
    fun _ ha hw => step_of_fetch_fault hs (fetch_of_word_fault ha hw)⟩

/-! ### The engine after a fault -/

theorem step_of_recorded {s : State} {f : Fault} (hs : s.fault = some f) : step s = .refused (.engineStopped f) := by
  simp only [step, hs]

theorem hostStep_of_refused {s : State} {r : Refusal} (h : step s = .refused r) : hostStep s = s := by
  simp only [hostStep, h]

/-- Settles O20: the refused step is the one the host ignores. -/
theorem noStepAfterFault : Obligations.NoStepAfterFault := fun _ _ hs =>
  ⟨step_of_recorded hs, hostStep_of_refused (step_of_recorded hs)⟩

/-- Settles O21: the host records the fault in the state the step began in, where `noStepAfterFault` applies. -/
theorem faultsArePrecise : Obligations.FaultsArePrecise := by
  intro s f h
  have hrec : hostStep s = { s with fault := some f } := hostStep_of_fault h
  have hfault : (hostStep s).fault = some f := by rw [hrec]
  exact ⟨hrec, (noStepAfterFault (hostStep s) f hfault).2⟩

/-! ### The dump -/

/-- Where the slots fit, the active slot is slot `SP` of the dump's numbering (R21, R22). -/
theorem slotAddr_eq_slotAt {s : State} (hfit : s.cfg.iawBase.toNat + 63 ≤ 16383) :
    (slotAddr s).toNat = slotAt s.cfg s.sp.toNat := (slotAddressInsideMemory s hfit).1

theorem dump_iaw {s : State} {a : Addr} (ha : activeIaw s = .ok a) : (dump s).iaw = some (renderAddress a) := by
  simp only [dump, ha]

theorem dump_slot (s : State) (k : Fin 8) : (dump s).slots[k.val]? = some (dumpSlot s k.val) := by
  simp [dump]

theorem dumpSlot_active {s : State} {a : Addr} (hfit : s.cfg.iawBase.toNat + 63 ≤ 16383) (ha : activeIaw s = .ok a) :
    dumpSlot s s.sp.toNat = ⟨s.sp.toNat, true, some (renderAddress a)⟩ := by
  have hread : readAddrWord s (slotAt s.cfg s.sp.toNat) = .ok a := by rw [← slotAddr_eq_slotAt hfit]; exact ha
  simp only [dumpSlot, hread, beq_self_eq_true]

theorem dumpSlot_inactive {s : State} {k : Nat} (h : s.sp.toNat ≠ k) : (dumpSlot s k).active = false :=
  beq_false_of_ne h

theorem dump_register (s : State) (r : BitVec 3) :
    (dump s).index[r.toNat]? = some (s.cfg.regName.getD r.toNat r.toNat, (s.cell r).map octalByte) := by
  have hr : r.toNat < 8 := r.isLt
  simp [dump, hr]

/-- Settles O48, one lemma for each part of the dump. -/
theorem dumpShowsActiveSlotAndRegisters : Obligations.DumpShowsActiveSlotAndRegisters := by
  intro s a hfit ha
  refine ⟨dump_iaw ha, fun k hk => ?_, fun k hk => ⟨dumpSlot s k.val, dump_slot s k, rfl, dumpSlot_inactive hk⟩,
    fun r => ⟨_, dump_register s r⟩, rfl, ?_⟩
  · rw [dump_slot, ← hk, dumpSlot_active hfit ha]
  · change cmpLetter s.cmp = _
    cases s.cmp <;> rfl

end Sys2Proof.Machine
end

section
/-! The invariant of a run (10_state.md, 40_cycle.md): the execute phases and the store of the IAW keep canonical memory
and every written register written, so every step keeps `Inv`. -/

namespace Sys2Proof.Machine

/-! ### Canonical memory and written registers -/

/-- The clauses of `Inv` that an execute phase could break: canonical memory stays canonical, and a written register
stays written (R12, R15, R31). -/
structure KeepsWritten (s t : State) : Prop where
  memory : Memory.wf s.mem = true → Memory.wf t.mem = true
  index : ∀ q, s.cell q ≠ none → t.cell q ≠ none
  acc : s.acc ≠ none → t.acc ≠ none

theorem KeepsWritten.refl (s : State) : KeepsWritten s s := ⟨id, fun _ => id, id⟩

theorem keepsWritten_setX (s : State) (r : BitVec 3) (n : Byte) : KeepsWritten s (s.setX r n) where
  memory := id
  index q hq := by
    rw [State.setX_cell]
    split
    · exact Option.some_ne_none n
    · exact hq
  acc := id

theorem keepsWritten_setCmp (s : State) (v : Cmp) : KeepsWritten s (s.setCmp v) := ⟨id, fun _ => id, id⟩

theorem keepsWritten_postModify (s : State) (mode : IndexMode) (r : BitVec 3) (x : Byte) :
    KeepsWritten s (postModify s mode r x) := by
  cases mode with
  | unchanged => exact .refl s
  | increment => exact keepsWritten_setX s r _
  | decrement => exact keepsWritten_setX s r _
  | reserved => exact .refl s

/-- A transfer writes `ACC`, whatever it held (R72). -/
theorem keepsWritten_transferByte (s : State) (tape : TapeId) :
    KeepsWritten s (transferByte tape { s with curTape := some tape }) where
  memory hwf := by rw [transferByte_mem]; exact hwf
  index q hq := by rw [transferByte_cell]; exact hq
  acc _ := by rw [transferByte_acc]; exact Option.some_ne_none _

/-- A store inside memory may come first: it keeps memory canonical and writes no register (R31). -/
theorem KeepsWritten.of_store {s u : State} {a : Nat} {v : Byte} (ha : a < memSize)
    (h : KeepsWritten { s with mem := Memory.write s.mem a v } u) : KeepsWritten s u :=
  ⟨fun hwf => h.memory (Memory.write_wf v ha hwf), h.index, h.acc⟩

/-- The store of an address word keeps memory canonical and writes no register (R34). -/
theorem KeepsWritten.writeAddrWord {s u t : State} {iaw : Option Addr} {slot : Nat} {a : Addr}
    (h : KeepsWritten s u) (hw : writeAddrWord u iaw slot a = .ok t) : KeepsWritten s t := by
  obtain ⟨hslot, rfl⟩ := writeAddrWord_ok hw
  have hfirst : slot < memSize := Nat.lt_of_succ_lt hslot
  exact ⟨fun hwf => Memory.write_wf _ hslot (Memory.write_wf _ hfirst (h.memory hwf)), h.index, h.acc⟩

/-- Every instruction that answers a next state keeps memory canonical and written registers written. -/
theorem exec_next_keepsWritten {i : Instr} {s t : State} (h : exec i s = .next t) : KeepsWritten s t := by
  obtain ⟨c, -, hcases⟩ := exec_next_cases h
  rcases hcases with ⟨r, n, -, ha⟩ | ⟨r, n, v, -, -, ha⟩ | ⟨r, code, p, mode, x, v, -, -, -, -, -, -, ha⟩ |
    ⟨ch, fn, tape, -, -, -, -, ha⟩ | ⟨target, -, -, hw⟩ | ⟨target, -, -, ha⟩
  · exact (keepsWritten_setX s r n).writeAddrWord (writeAddrWord_of_advance ha)
  · exact (keepsWritten_setCmp s _).writeAddrWord (writeAddrWord_of_advance ha)
  · have htarget : (indirectAddr p x).toNat < memSize := (indirectAddr p x).isLt
    exact ((keepsWritten_postModify _ mode r x).of_store htarget).writeAddrWord (writeAddrWord_of_advance ha)
  · exact (keepsWritten_transferByte s tape).writeAddrWord (writeAddrWord_of_advance ha)
  · exact (KeepsWritten.refl s).writeAddrWord hw
  · exact (KeepsWritten.refl s).writeAddrWord (writeAddrWord_of_advance ha)

/-! ### The obligations -/

/-- Settles O25: what the instruction keeps gives the clauses on memory and registers, the parameters are kept and no
fault is left (`stepKeepsStackPointerAndParameters`), and the IAW it stored reads back (`iawReadableAfterEveryStep`). -/
theorem stepKeepsInvariant : Obligations.StepKeepsInvariant := by
  intro s t hs h
  obtain ⟨-, i, hi⟩ := step_next h
  have hkeeps : KeepsWritten s t := exec_next_keepsWritten hi
  obtain ⟨-, hcfg, hnone⟩ := stepKeepsStackPointerAndParameters s t h
  exact {
    memory := hkeeps.memory hs.memory
    slotsFit := hcfg ▸ hs.slotsFit
    iaw := iawReadableAfterEveryStep s t h
    index := fun r => hkeeps.index r (hs.index r)
    acc := hkeeps.acc hs.acc
    noFault := hnone }

end Sys2Proof.Machine
end

section
/-! Reset, launch and the end of a run (70_reset_and_hazards.md R96 to R101): what `reset()` leaves, where `load` puts
each byte, a launch as its loads followed by reset, and the checks before each step of a run. -/

namespace Sys2Proof.Machine

/-! ### Reset -/

/-- Slot 0 lies at `IAW_BASE` (R21). -/
theorem slotAddr_zero_toNat (s : State) : (slotAddr { s with sp := 0#5 }).toNat = s.cfg.iawBase.toNat :=
  (slotAddr_toNat _).trans (Nat.mod_eq_of_lt s.cfg.iawBase.isLt)

/-- `reset()` is the store of the entry point at `IAW_BASE`, in the state with its fields set (R96). -/
theorem resetOp_eq (s : State) :
    resetOp s = writeAddrWord
      { s with sp := 0#5, cmp := .equal, curTape := none, cur1 := 0, cur2 := 0, fault := none } none
      s.cfg.iawBase.toNat entryPoint := by
  rw [resetOp, slotAddr_zero_toNat]

theorem resetOp_succeeds {s : State} (hfit : s.cfg.iawBase.toNat + 63 ≤ 16383) : ∃ t, resetOp s = .ok t := by
  have hslot : s.cfg.iawBase.toNat + 1 < memSize := by
    show _ < 16384
    omega
  exact ⟨_, (resetOp_eq s).trans (writeAddrWord_of_lt _ none entryPoint hslot)⟩

/-- Everything `reset()` has done where it succeeds: the fields it sets, the two bytes of slot 0, and nothing else. -/
theorem resetOp_ok {s t : State} (h : resetOp s = .ok t) :
    (∃ m, t = { s with sp := 0#5, cmp := .equal, curTape := none, cur1 := 0, cur2 := 0, fault := none, mem := m }) ∧
    activeIaw t = .ok entryPoint ∧
    Memory.read t.mem s.cfg.iawBase.toNat = some (addrWordBytes s.cfg.addrWordOrder entryPoint).1 ∧
    Memory.read t.mem (s.cfg.iawBase.toNat + 1) = some (addrWordBytes s.cfg.addrWordOrder entryPoint).2 ∧
    SameMemoryOutside (fun a => a = s.cfg.iawBase.toNat ∨ a = s.cfg.iawBase.toNat + 1) s t := by
  obtain ⟨hfields, hiaw, -⟩ := writeSlot_ok rfl rfl h
  rw [resetOp_eq] at h
  obtain ⟨hfirst, hsecond, hframe⟩ := writeAddrWord_bytes h
  exact ⟨⟨t.mem, hfields⟩, hiaw, hfirst, hsecond, hframe⟩

theorem entryPoint_eq : entryPoint = 0x0800#14 := by decide

/-- Settles O42: where slot 0 fits, reset succeeds, and `resetOp_ok` says what it has done. -/
theorem resetWritesOnlyItsParts : Obligations.ResetWritesOnlyItsParts := by
  intro s hfit
  obtain ⟨t, ht⟩ := resetOp_succeeds hfit
  obtain ⟨⟨m, rfl⟩, hiaw, hfirst, hsecond, hframe⟩ := resetOp_ok ht
  rw [entryPoint_eq] at hiaw
  refine ⟨_, ht, rfl, rfl, rfl, rfl, rfl, rfl, hiaw, fun horder => ?_, fun _ => rfl, rfl, rfl, hframe⟩
  rw [hfirst, hsecond, horder]
  decide

/-! ### The reset state -/

theorem resetOp_powerOn : resetOp State.powerOn = .ok State.reset := rfl

theorem activeIaw_reset : activeIaw State.reset = .ok entryPoint := by
  obtain ⟨-, hiaw, -⟩ := resetOp_ok resetOp_powerOn
  exact hiaw

/-- The registers hold 0 at reset (log entry 1). -/
theorem State.reset_cell (r : BitVec 3) : State.reset.cell r = some 0#8 := Vector.getElem_replicate r.isLt

/-- Nothing is loaded before the power-on machine's reset, which writes slot 0 alone. -/
theorem State.reset_read {a : Nat} (ha : 2 ≤ a) : Memory.read State.reset.mem a = none := by
  obtain ⟨-, -, -, -, hframe⟩ := resetOp_ok resetOp_powerOn
  have hout : ¬ (a = 0 ∨ a = 0 + 1) := by omega
  exact hframe a hout

/-- Settles O43: the fields are as `State.reset` writes them out, IAW and memory as `reset()` leaves them. -/
theorem resetStateIsResetOfPowerOn : Obligations.ResetStateIsResetOfPowerOn :=
  ⟨resetOp_powerOn, activeIaw_reset, rfl, rfl, rfl, rfl, rfl, rfl, rfl, State.reset_cell, rfl,
    fun _ => State.reset_read⟩

/-- Settles O26: the IAW was stored by `reset()`, and the registers hold 0. -/
theorem invariantHoldsAtReset : Obligations.InvariantHoldsAtReset where
  memory := State.reset_mem_wf
  slotsFit := by decide
  iaw := ⟨entryPoint, activeIaw_reset⟩
  index r := by rw [State.reset_cell]; exact Option.some_ne_none _
  acc := Option.some_ne_none _
  noFault := rfl

/-! ### Loading -/

/-- Bytes written one after the other leave every address before and after them as it was. -/
theorem Memory.read_writeBytes_outside (m : Memory) {start a : Nat} {bytes : List Byte}
    (h : a < start ∨ start + bytes.length ≤ a) :
    Memory.read (Memory.writeBytes m start bytes) a = Memory.read m a := by
  induction bytes generalizing m start with
  | nil => rfl
  | cons b rest ih =>
    rw [List.length_cons] at h
    rw [Memory.writeBytes, ih _ (by omega), Memory.read_write_other _ _ (by omega)]

/-- Each of them is where it was put: the first is before the others, which do not reach it. -/
theorem Memory.read_writeBytes (m : Memory) (start : Nat) {bytes : List Byte} {k : Nat} (h : k < bytes.length) :
    Memory.read (Memory.writeBytes m start bytes) (start + k) = some bytes[k] := by
  induction bytes generalizing m start k with
  | nil => cases h
  | cons b rest ih =>
    rw [Memory.writeBytes]
    cases k with
    | zero =>
      rw [Memory.read_writeBytes_outside _ (by omega), Nat.add_zero, Memory.read_write_same]
      rfl
    | succ k =>
      rw [show start + (k + 1) = start + 1 + k by omega]
      exact ih _ _ (Nat.lt_of_succ_lt_succ h)

/-- Settles O44: the length check is the one `load` makes, and the bytes lie where `writeBytes` puts them. -/
theorem loadPlacesBytes : Obligations.LoadPlacesBytes := by
  intro s start bytes
  refine ⟨fun hover => if_neg (Nat.not_le.mpr hover), fun hfit => ?_⟩
  exact ⟨_, if_pos hfit, rfl, fun k hk => Memory.read_writeBytes s.mem start hk,
    fun a ha => Memory.read_writeBytes_outside s.mem ha, Memory.writeBytes_wf bytes hfit⟩

/-! ### Launch -/

/-- A launch that is not refused is its loads and then reset (R98). -/
theorem launch_some {s t : State} {loads : List (Nat × List Byte)} (h : launch s loads = some t) :
    ∃ u, loadAll s loads = some u ∧ resetOp u = .ok t := by
  unfold launch at h
  split at h
  · cases h
  next u hu =>
    split at h
    next v hv =>
      cases h
      exact ⟨u, hu, hv⟩
    next => cases h

/-- The last of the loads is in memory when all are done. -/
theorem loadAll_last_byte {s u : State} {earlier : List (Nat × List Byte)} {start : Nat} {bytes : List Byte}
    (h : loadAll s (earlier ++ [(start, bytes)]) = some u) {k : Nat} (hk : k < bytes.length) :
    Memory.read u.mem (start + k) = some bytes[k] := by
  rw [loadAll_append_last] at h
  obtain ⟨v, -, hload⟩ := Option.bind_eq_some_iff.mp h
  obtain ⟨-, rfl⟩ := load_some hload
  exact Memory.read_writeBytes v.mem start hk

/-- Settles O45: the loads change memory alone, and reset then does what O42 says, outside slot 0 as they left it. -/
theorem launchEndsWithReset : Obligations.LaunchEndsWithReset := by
  intro s t loads hfit h
  obtain ⟨u, hu, ht⟩ := launch_some h
  obtain ⟨m, rfl⟩ : ∃ m, u = { s with mem := m } := ⟨u.mem, loadAll_frame hu⟩
  obtain ⟨v, hv, hsp, hcmp, htape, hcur1, hcur2, hfault, hiaw, -, hindex, hacc, hcfg, hframe⟩ :=
    resetWritesOnlyItsParts { s with mem := m } hfit
  obtain rfl : t = v := Except.ok.inj (ht.symm.trans hv)
  refine ⟨hiaw, hcmp, hsp, htape, hcur1, hcur2, hfault, hindex, hacc, hcfg, ⟨_, hu, hframe⟩, ?_⟩
  rintro earlier start bytes rfl k hk h0 h1
  rw [hframe (start + k) (not_or.mpr ⟨h0, h1⟩)]
  exact loadAll_last_byte hu hk

/-! ### The end of a run -/

/-- The engine is at its stop exactly where an address is given and the active IAW reads as that address (R101). -/
theorem atStop_iff (s : State) : atStop s = true ↔ ∃ a, s.cfg.stop = some a ∧ activeIaw s = .ok a := by
  unfold atStop
  constructor
  · intro h
    split at h
    next a b hstop hiaw =>
      obtain rfl := eq_of_beq h
      exact ⟨a, hstop, hiaw⟩
    next => cases h
  · rintro ⟨a, hstop, hiaw⟩
    simp only [hstop, hiaw, beq_self_eq_true]

theorem not_atStop {s : State} (h : s.cfg.stop = none) : ¬ atStop s = true := by
  rw [atStop_iff]
  rintro ⟨a, hstop, -⟩
  rw [h] at hstop
  cases hstop

theorem runToStop_of_fault {s : State} (k : Nat) (hs : s.fault ≠ none) : runToStop k s = .faulted s := by
  have hsome : s.fault.isSome = true := Option.isSome_iff_ne_none.mpr hs
  cases k <;> simp only [runToStop, hsome, if_true]

theorem runToStop_of_atStop {s : State} (k : Nat) (hs : s.fault = none) (h : atStop s = true) :
    runToStop k s = .stopped s := by
  cases k <;> simp [runToStop, hs, h]

theorem runToStop_zero {s : State} (hs : s.fault = none) (h : ¬ atStop s = true) : runToStop 0 s = .running s := by
  simp [runToStop, hs, h]

theorem runToStop_succ {s : State} (k : Nat) (hs : s.fault = none) (h : ¬ atStop s = true) :
    runToStop (k + 1) s = runToStop k (hostStep s) := by
  simp [runToStop, hs, h]

theorem hostStep_cfg (s : State) : (hostStep s).cfg = s.cfg := by
  unfold hostStep
  split
  next t ht => exact (stepKeepsStackPointerAndParameters s t ht).2.1
  next => rfl
  next => rfl

/-- Without a stop address no run ends normally: every step of the host leaves the parameters as they are. -/
theorem runToStop_ne_stopped {s : State} (k : Nat) (hstop : s.cfg.stop = none) (t : State) :
    runToStop k s ≠ .stopped t := by
  induction k generalizing s with
  | zero =>
    by_cases hs : s.fault = none
    · rw [runToStop_zero hs (not_atStop hstop)]
      exact RunEnd.noConfusion
    · rw [runToStop_of_fault _ hs]
      exact RunEnd.noConfusion
  | succ k ih =>
    by_cases hs : s.fault = none
    · rw [runToStop_succ k hs (not_atStop hstop)]
      exact ih ((congrArg Config.stop (hostStep_cfg s)).trans hstop)
    · rw [runToStop_of_fault _ hs]
      exact RunEnd.noConfusion

/-- Settles O46, one lemma for each way a run can go on. -/
theorem runEndsAtStopOrFault : Obligations.RunEndsAtStopOrFault := by
  intro s k
  refine ⟨runToStop_of_fault k, fun a hs hstop hiaw => ?_, fun hs hne => ?_, runToStop_ne_stopped k⟩
  · exact runToStop_of_atStop k hs ((atStop_iff s).mpr ⟨a, hstop, hiaw⟩)
  · refine runToStop_succ k hs fun h => ?_
    obtain ⟨a, hstop, hiaw⟩ := (atStop_iff s).mp h
    exact hne a hstop hiaw

end Sys2Proof.Machine
end

section
/-! Disassembly (30_encoding.md R63): the text of an encoded instruction is its own row's, and the source's examples. -/

namespace Sys2Proof.Machine

/-- Under the default parameters the word of a well-formed instruction is rendered by the instruction's own row. -/
theorem disassemble_encode {i : Instr} {d : DefRow} (hi : i.wellFormed = true)
    (hrow : (defaultDefs.find? fun e => e.type = i.rowType) = some d) :
    disassemble Config.default (encode i) = disassembleRow Config.default d (encode i) := by
  rw [← classify_encode hi] at hrow
  unfold disassemble
  rw [show Config.default.defs = defaultDefs from rfl, hrow]

/-- Settles O6: each word is the word of an instruction, whose row spells the text. -/
theorem disassemblyExamples : Obligations.DisassemblyExamples := by
  refine ⟨?_, ?_, ?_, ?_, ?_, by decide⟩
  · exact (disassemble_encode (i := .tlj 1#1 0#4 34#8) (by decide) rfl).trans (by decide)
  · exact (disassemble_encode (i := .ldx 0#3 42#8) (by decide) rfl).trans (by decide)
  · exact (disassemble_encode (i := .bru 0x0200#14) (by decide) rfl).trans (by decide)
  · exact (disassemble_encode (i := .ioc 1#3 0o007#8) (by decide) rfl).trans (by decide)
  · exact (disassemble_encode (i := .unknown 0xA000#16) (by decide) rfl).trans (by decide)

end Sys2Proof.Machine
end
